-- ==== Sys2Proof/Word.lean ====
section
/-! DEFINITION. The word, byte and operand-field types of the turtl CORE (spec/00_scope.md R7, R9, R10). -/

namespace Sys2Proof

/-- A `u64`: a register, an address, an instruction word, `ip`, `flags` (R7: `XLEN` = `ILEN` = `IPLEN` =
`FLEN` = 64). Everything is unsigned (R10). -/
abbrev Word := BitVec 64

/-- One byte of the flat data memory (R36, R52). -/
abbrev Byte := BitVec 8

/-- A register index, `0 .. NUM_GEN_REGS - 1` with `NUM_GEN_REGS` = 12 (R7, R20): an index of 12 or more names no
register and cannot be written down. -/
abbrev Reg := Fin 12

/-- The unsigned immediate of shape `RI`, `w[53:0]` (R85, R93). -/
abbrev Imm54 := BitVec 54

/-- The unsigned immediate of shape `I`, `w[57:0]` (R87, R93). -/
abbrev Imm58 := BitVec 58

/-- The whole operand field `w[57:0]` (R80); also the opaque field `raw58` of shape `X` (R89). -/
abbrev OperandField := BitVec 58

end Sys2Proof
end

