-- ==== Sys2Proof/Config.lean ====
section
/-! DEFINITION. The open parameters of spec/00_scope.md R8 (`MEM_SIZE`, `ORD`, `BYTE_ORDER`, `BOUND_STRICT`,
`StorageCap`). The first four are plain data, fixed at construction and carried in the state, so that a statement
about every state holds for every value of them. `StorageCap` is the free value of the model. The default values stand
in Sys2Proof/Decode.lean (`ORD`) and Sys2Proof/Machine/Params.lean; `PROG` and `PROG_LEN` are the state's program
store. -/

namespace Sys2Proof

/-- `BYTE_ORDER`, the byte order of the 8-byte data access (R8, R53; decision D6). -/
inductive ByteOrder
  | little
  | big
  deriving DecidableEq, Repr

/-- `ORD`, the 6-bit ordinal of each of the 21 opcodes (R8; decision D1), entry `k` belonging to the opcode that row
`k` of R90's table names (`Opcode.index`). -/
abbrev Ordinals := Vector (BitVec 6) 21

/-- The parameters a machine is constructed with (R8). No tick and no `load` changes them. -/
structure Config where
  /-- `MEM_SIZE`, the capacity in bytes of the data memory; any natural number (R8, R36; decision D23). -/
  memSize : Nat
  /-- `ORD`. -/
  ord : Ordinals
  /-- `BYTE_ORDER`. -/
  byteOrder : ByteOrder
  /-- `BOUND_STRICT`: whether an access that ends exactly at `MEM_SIZE` is refused (R55; decision D8). -/
  boundStrict : Bool
  deriving DecidableEq, Repr

/-- The operation a storage opcode asks for (spec/46_storage.md R201). -/
inductive StorageOp
  | load
  | store
  | publish
  | subscribe
  deriving DecidableEq, Repr

/-- One request on the storage capability port (R201, spec/50_interfaces.md R217): the operation, the field `raw58`,
and the registers, flags and data memory as they are before the instruction. -/
structure StorageRequest where
  op : StorageOp
  raw58 : OperandField
  regs : Vector Word 12
  flags : Word
  mem : List Host.Cell
  deriving DecidableEq, Repr

/-- What the collaborator does with a request (R202). -/
inductive StorageReply
  /-- No answer ever comes: R202 assumes none does (vector V87; spec/93_implementation_defined.md U7). -/
  | noAnswer
  /-- `fail(code)`. -/
  | fail (code : Word)
  /-- `ok(x', flags', mem')`. The byte array `mem'` is written as (address, byte) pairs: the first pair at an address
  counts, an address in no pair holds 0, and pairs at or above `MEM_SIZE` are no part of it; so every byte array of
  length `MEM_SIZE` is written by some list, and every list writes one. -/
  | ok (regs : Vector Word 12) (flags : Word) (mem : List Host.Cell)
  deriving DecidableEq, Repr, Inhabited

/-- `StorageCap` (R202), the FREE VALUE of the model: what the collaborator does when the core presents the newest
request of `history` (newest first). It has no body that a proof could see. Its argument is the whole history of
requests, because R202 does not assume that an answer is a function of the request alone; the history grows with each
request, so every request draws anew. (notes/assumptions/3.md) -/
opaque Config.storageReply (history : List StorageRequest) : StorageReply

end Sys2Proof
end

