-- ==== Sys2Proof/Machine/Memory.lean ====
section
/-! DEFINITION. The data memory as a canonical list of (address, byte) cells, its bytes, and the 8-byte word built
from them in one place (spec/20_memory.md R52, R53, R56, R57). The bounds test is Ops.lean's. -/

namespace Sys2Proof.Machine

/-- The data memory (R36, R52): the cells that do not hold what an unlisted address reads as. -/
abbrev Memory := List Host.Cell

/-- What an unlisted address reads as: every byte is 0 after reset (R39, R52). -/
def Memory.unlisted : Byte := 0

/-- The canonical form: addresses strictly rising, no cell equal to an unlisted one. -/
abbrev Memory.wf (m : Memory) : Prop :=
  m.Pairwise (fun c d => c.1 < d.1) ∧ ∀ c ∈ m, c.2 ≠ Memory.unlisted

/-- Every listed cell lies below `size` (R36: addresses `0 .. MEM_SIZE - 1`). -/
abbrev Memory.within (size : Nat) (m : Memory) : Prop := ∀ c ∈ m, c.1 < size

/-- `mem[a]`. -/
def Memory.readByte : Memory → Nat → Byte
  | [], _ => Memory.unlisted
  | (a', b) :: rest, a => if a = a' then b else Memory.readByte rest a

/-- The cell `(a, b)` before `rest`, left out where it says what an unlisted address says. -/
def Memory.putCell (a : Nat) (b : Byte) (rest : Memory) : Memory :=
  if b = Memory.unlisted then rest else (a, b) :: rest

/-- `mem[a] <- b`, keeping the canonical form. -/
def Memory.writeByte : Memory → Nat → Byte → Memory
  | [], a, b => Memory.putCell a b []
  | (a', b') :: rest, a, b =>
    if a < a' then Memory.putCell a b ((a', b') :: rest)
    else if a = a' then Memory.putCell a b rest
    else (a', b') :: Memory.writeByte rest a b

/-- The `n` bytes from address `a` upwards. -/
def Memory.readBytes (m : Memory) (a : Nat) : Nat → List Byte
  | 0 => []
  | n + 1 => m.readByte a :: Memory.readBytes m (a + 1) n

/-- The bytes `bs` written from address `a` upwards. -/
def Memory.writeBytes (m : Memory) (a : Nat) : List Byte → Memory
  | [] => m
  | b :: bs => Memory.writeBytes (m.writeByte a b) (a + 1) bs

/-- The `n` low bytes of `v`, least significant first: byte `k` is `(v >> (8*k)) mod 256` (R53). -/
def bytesLE : Nat → Nat → List Byte
  | 0, _ => []
  | n + 1, v => BitVec.ofNat 8 v :: bytesLE n (v / 256)

/-- The sum of `bs[k] * 2^(8*k)` (R56). -/
def natOfLE : List Byte → Nat
  | [] => 0
  | b :: bs => b.toNat + 256 * natOfLE bs

/-- The 8 bytes of `v` in rising address order: least significant first for `little`, most significant first for
`big` (R53). -/
def bytesOfWord (o : ByteOrder) (v : Word) : List Byte :=
  match o with
  | .little => bytesLE 8 v.toNat
  | .big => (bytesLE 8 v.toNat).reverse

/-- The word 8 bytes in rising address order stand for (R56). -/
def wordOfBytes (o : ByteOrder) (bs : List Byte) : Word :=
  match o with
  | .little => BitVec.ofNat 64 (natOfLE bs)
  | .big => BitVec.ofNat 64 (natOfLE bs.reverse)

/-- The `u64` at bytes `a .. a + 7` (R56); every access moves 8 bytes (R58). -/
def Memory.readWord (o : ByteOrder) (m : Memory) (a : Nat) : Word := wordOfBytes o (m.readBytes a 8)

/-- `v` at bytes `a .. a + 7`, every other byte as before (R57). -/
def Memory.writeWord (o : ByteOrder) (m : Memory) (a : Nat) (v : Word) : Memory :=
  m.writeBytes a (bytesOfWord o v)

/-- The canonical memory of `size` bytes that a list of cells writes: the first cell at an address counts, cells at
or above `size` are no part of it (`StorageReply.ok`, spec/46_storage.md R202). -/
def Memory.ofCells (size : Nat) : List Host.Cell → Memory
  | [] => []
  | (a, b) :: rest =>
    if a < size then (Memory.ofCells size rest).writeByte a b else Memory.ofCells size rest

end Sys2Proof.Machine
end

