-- ==== Sys2Proof/Syntax.lean ====
section
/-! DEFINITION. The 21 opcodes, the seven operand shapes and the instructions (spec/30_encoding.md R83, R90;
spec/00_scope.md R2). An instruction is an opcode with its decoded operands. -/

namespace Sys2Proof

/-- The operand shapes of R83 (R84 to R89). -/
inductive Shape
  | rr
  | ri
  | r
  | i
  | rrr
  | n
  | x
  deriving DecidableEq, Repr

/-- The number of operands of a shape; R91 and R200 leave that of `X` open. -/
def Shape.arity : Shape → Option Nat
  | .rr => some 2
  | .ri => some 2
  | .r => some 1
  | .i => some 1
  | .rrr => some 3
  | .n => some 0
  | .x => none

/-- The closed set of 21 opcodes (R2, R90), in the order of R90's table. -/
inductive Opcode
  | movr | movi
  | ldr | ldi | str | sti
  | addr | subr | mulr | divr
  | jmpr | jmpi
  | eq | and | lt | not
  | sld | sst | spub | ssub
  | halt
  deriving DecidableEq, Repr

/-- All opcodes, in the order of R90's table. -/
def Opcode.all : List Opcode :=
  [.movr, .movi, .ldr, .ldi, .str, .sti, .addr, .subr, .mulr, .divr, .jmpr, .jmpi,
   .eq, .and, .lt, .not, .sld, .sst, .spub, .ssub, .halt]

/-- The row of R90's table an opcode stands in. -/
def Opcode.index : Opcode → Fin 21
  | .movr => 0
  | .movi => 1
  | .ldr => 2
  | .ldi => 3
  | .str => 4
  | .sti => 5
  | .addr => 6
  | .subr => 7
  | .mulr => 8
  | .divr => 9
  | .jmpr => 10
  | .jmpi => 11
  | .eq => 12
  | .and => 13
  | .lt => 14
  | .not => 15
  | .sld => 16
  | .sst => 17
  | .spub => 18
  | .ssub => 19
  | .halt => 20

/-- Each opcode has exactly one operand shape (R83, R90). -/
def Opcode.shape : Opcode → Shape
  | .movr | .ldr | .str | .eq | .and | .lt => .rr
  | .movi | .ldi | .sti => .ri
  | .jmpr | .not => .r
  | .jmpi => .i
  | .addr | .subr | .mulr | .divr => .rrr
  | .halt => .n
  | .sld | .sst | .spub | .ssub => .x

/-- An instruction: one constructor per row of spec/opcode_table.json, its operands in the order of R107 (`ra`, then
`rb` or the immediate, then `rc`). -/
inductive Instr
  /-- MOVR `ra rb` (R150). -/
  | movr (ra rb : Reg)
  /-- MOVI `ra imm54` (R151). -/
  | movi (ra : Reg) (imm : Imm54)
  /-- LDR `ra rb` (R161). -/
  | ldr (ra rb : Reg)
  /-- LDI `ra imm54` (R162). -/
  | ldi (ra : Reg) (imm : Imm54)
  /-- STR `ra rb` (R163). -/
  | str (ra rb : Reg)
  /-- STI `ra imm54` (R164). -/
  | sti (ra : Reg) (imm : Imm54)
  /-- ADDR `ra rb rc` (R171). -/
  | addr (ra rb rc : Reg)
  /-- SUBR `ra rb rc` (R172). -/
  | subr (ra rb rc : Reg)
  /-- MULR `ra rb rc` (R173). -/
  | mulr (ra rb rc : Reg)
  /-- DIVR `ra rb rc` (R174). -/
  | divr (ra rb rc : Reg)
  /-- JMPR `ra` (R180). -/
  | jmpr (ra : Reg)
  /-- JMPI `imm58` (R181). -/
  | jmpi (imm : Imm58)
  /-- EQ `ra rb` (R191). -/
  | eq (ra rb : Reg)
  /-- AND `ra rb` (R192). -/
  | and (ra rb : Reg)
  /-- LT `ra rb` (R193). -/
  | lt (ra rb : Reg)
  /-- NOT `ra` (R194). -/
  | not (ra : Reg)
  /-- SLD `raw58` (R203). -/
  | sld (raw : OperandField)
  /-- SST `raw58` (R204). -/
  | sst (raw : OperandField)
  /-- SPUB `raw58` (R205). -/
  | spub (raw : OperandField)
  /-- SSUB `raw58` (R206). -/
  | ssub (raw : OperandField)
  /-- HALT (R182). -/
  | halt
  deriving DecidableEq, Repr

/-- The opcode of an instruction. -/
def Instr.opcode : Instr → Opcode
  | .movr _ _ => .movr
  | .movi _ _ => .movi
  | .ldr _ _ => .ldr
  | .ldi _ _ => .ldi
  | .str _ _ => .str
  | .sti _ _ => .sti
  | .addr _ _ _ => .addr
  | .subr _ _ _ => .subr
  | .mulr _ _ _ => .mulr
  | .divr _ _ _ => .divr
  | .jmpr _ => .jmpr
  | .jmpi _ => .jmpi
  | .eq _ _ => .eq
  | .and _ _ => .and
  | .lt _ _ => .lt
  | .not _ => .not
  | .sld _ => .sld
  | .sst _ => .sst
  | .spub _ => .spub
  | .ssub _ => .ssub
  | .halt => .halt

/-- The four storage opcodes (R200). -/
def Opcode.isStorage : Opcode → Bool
  | .sld | .sst | .spub | .ssub => true
  | .movr | .movi | .ldr | .ldi | .str | .sti | .addr | .subr | .mulr | .divr
  | .jmpr | .jmpi | .eq | .and | .lt | .not | .halt => false

/-- An opcode together with an operand field that nothing has checked yet. -/
structure RawInstr where
  op : Opcode
  opnd : OperandField
  deriving DecidableEq, Repr

end Sys2Proof
end

