-- ==== Sys2Proof/WellFormed.lean ====
section
/-! DEFINITION. The checks: which operand fields are legal (spec/30_encoding.md R92, R95), which configurations and
programs meet the constraints of spec/00_scope.md R8. An `Instr` needs no check, since its register operands are
`Fin 12` and its immediates have their field's width; what is checked is the operand field of a word. -/

namespace Sys2Proof

/-- The register check of R92: all the bits of the field, as an unsigned integer, are below 12. -/
def regFieldOk {n : Nat} (f : BitVec n) : Bool := decide (f.toNat < 12)

/-- R95: under the opcode's shape every register field is below 12, and the field of shape `N` is zero. The field
positions are those of R84 to R89. -/
def RawInstr.wellFormed (r : RawInstr) : Bool :=
  match r.op.shape with
  | .rr => regFieldOk (r.opnd.extractLsb' 54 4) && regFieldOk (r.opnd.extractLsb' 0 54)
  | .ri => regFieldOk (r.opnd.extractLsb' 54 4)
  | .r => regFieldOk r.opnd
  | .i => true
  | .rrr => regFieldOk (r.opnd.extractLsb' 39 19) && regFieldOk (r.opnd.extractLsb' 20 19)
      && regFieldOk (r.opnd.extractLsb' 0 20)
  | .n => decide (r.opnd = 0)
  | .x => true

/-- `ORD` is injective (R8). -/
abbrev Ordinals.wf (o : Ordinals) : Prop := o.toList.Nodup

/-- The constraints R8 puts on the parameters: `ORD` injective; every `MEM_SIZE`, `BYTE_ORDER` and `BOUND_STRICT` is
allowed. -/
abbrev Config.wf (c : Config) : Prop := Ordinals.wf c.ord

/-- `PROG_LEN` is at most `2^64 - 1` (R8; decision D11); the words may be any words at all. -/
abbrev programWf (p : List Word) : Prop := p.length < 2 ^ 64

end Sys2Proof
end

