-- ==== Sys2Proof/Decode.lean ====
section
/-! DEFINITION. The decoder, total on every 64-bit word (spec/30_encoding.md R97), and after it the encoder, from the
same field tables (R84 to R89). The program store holds 64-bit integers, not bytes, so no byte order plays a part (R51). -/

namespace Sys2Proof

/-- The ordinal `ORD` gives an opcode. -/
def ordinal (o : Ordinals) (m : Opcode) : BitVec 6 := o[m.index]

/-- The default `ORD`, the table of R90 (decision D1). -/
def defaultOrd : Ordinals :=
  #v[0, 1, 2, 3, 4, 5, 6, 7, 8, 9, 10, 11, 12, 13, 14, 15, 16, 17, 18, 19, 20]

/-- `opc = w[63:58]` (R80). -/
def opcField (w : Word) : BitVec 6 := w.extractLsb' 58 6

/-- `opnd = w[57:0]` (R80). -/
def opndField (w : Word) : OperandField := w.extractLsb' 0 58

/-- The first-register field of shapes `RR` and `RI`, bits 57:54 (R84, R85). -/
def field57to54 (f : OperandField) : BitVec 4 := f.extractLsb' 54 4

/-- The second operand's field of shapes `RR` and `RI`, bits 53:0 (R84, R85). -/
def field53to0 (f : OperandField) : BitVec 54 := f.extractLsb' 0 54

/-- The first-register field of shape `RRR`, bits 57:39 (R88). -/
def field57to39 (f : OperandField) : BitVec 19 := f.extractLsb' 39 19

/-- The second-register field of shape `RRR`, bits 38:20 (R88). -/
def field38to20 (f : OperandField) : BitVec 19 := f.extractLsb' 20 19

/-- The third-register field of shape `RRR`, bits 19:0 (R88). -/
def field19to0 (f : OperandField) : BitVec 20 := f.extractLsb' 0 20

/-- A register field, read at its full width; a value of 12 or more names no register (R92; decision D12). -/
def regOf? {n : Nat} (f : BitVec n) : Option Reg :=
  if h : f.toNat < 12 then some ⟨f.toNat, h⟩ else none

/-- Shape `RR` (R84). -/
def decodeRR (mk : Reg → Reg → Instr) (f : OperandField) : Option Instr :=
  match regOf? (field57to54 f), regOf? (field53to0 f) with
  | some ra, some rb => some (mk ra rb)
  | _, _ => none

/-- Shape `RI` (R85). -/
def decodeRI (mk : Reg → Imm54 → Instr) (f : OperandField) : Option Instr :=
  match regOf? (field57to54 f) with
  | some ra => some (mk ra (field53to0 f))
  | none => none

/-- Shape `R` (R86). -/
def decodeR (mk : Reg → Instr) (f : OperandField) : Option Instr :=
  match regOf? f with
  | some ra => some (mk ra)
  | none => none

/-- Shape `RRR` (R88). -/
def decodeRRR (mk : Reg → Reg → Reg → Instr) (f : OperandField) : Option Instr :=
  match regOf? (field57to39 f), regOf? (field38to20 f), regOf? (field19to0 f) with
  | some ra, some rb, some rc => some (mk ra rb rc)
  | _, _, _ => none

/-- Shape `N` (R89). -/
def decodeN (i : Instr) (f : OperandField) : Option Instr :=
  if f = 0 then some i else none

/-- The operands of a known opcode, cut by its shape; `none` is an illegal operand (R95). -/
def decodeOperands (m : Opcode) (f : OperandField) : Option Instr :=
  match m with
  | .movr => decodeRR .movr f
  | .movi => decodeRI .movi f
  | .ldr => decodeRR .ldr f
  | .ldi => decodeRI .ldi f
  | .str => decodeRR .str f
  | .sti => decodeRI .sti f
  | .addr => decodeRRR .addr f
  | .subr => decodeRRR .subr f
  | .mulr => decodeRRR .mulr f
  | .divr => decodeRRR .divr f
  | .jmpr => decodeR .jmpr f
  | .jmpi => some (.jmpi f)
  | .eq => decodeRR .eq f
  | .and => decodeRR .and f
  | .lt => decodeRR .lt f
  | .not => decodeR .not f
  | .sld => some (.sld f)
  | .sst => some (.sst f)
  | .spub => some (.spub f)
  | .ssub => some (.ssub f)
  | .halt => decodeN .halt f

/-- Why a word does not decode (R94, R95); each carries the whole word, which is the `finfo` of the fault. -/
inductive DecodeFault
  | undefinedOpcode (w : Word)
  | illegalOperand (w : Word)
  deriving DecidableEq, Repr

/-- What the decoder answers. -/
inductive Decoded
  | instr (i : Instr)
  | fault (f : DecodeFault)
  deriving DecidableEq, Repr

/-- The opcode whose ordinal is `opc`, if any (R81: the opcode is found from the top 6 bits alone). -/
def opcodeOf (o : Ordinals) (opc : BitVec 6) : Option Opcode :=
  Opcode.all.find? fun m => ordinal o m == opc

/-- The decode function of R97. -/
def decode (o : Ordinals) (w : Word) : Decoded :=
  match opcodeOf o (opcField w) with
  | none => .fault (.undefinedOpcode w)
  | some m =>
    match decodeOperands m (opndField w) with
    | none => .fault (.illegalOperand w)
    | some i => .instr i

/-- The instruction the decoder reads from a row's word under the default `ORD`. An instruction is one 64-bit word
(R80); bits at and above `nbits` are 0. -/
def decodeTableWord (nbits w : Nat) : Option Instr :=
  match decode defaultOrd (BitVec.ofNat 64 (w % 2 ^ nbits)) with
  | .instr i => some i
  | .fault _ => none

/-! ### The encoder -/

/-- The operand field of shape `RR` (R84). -/
def fieldsRR (ra rb : Reg) : OperandField := BitVec.ofNat 4 ra.val ++ BitVec.ofNat 54 rb.val

/-- The operand field of shape `RI` (R85). -/
def fieldsRI (ra : Reg) (imm : Imm54) : OperandField := BitVec.ofNat 4 ra.val ++ imm

/-- The operand field of shape `R` (R86). -/
def fieldsR (ra : Reg) : OperandField := BitVec.ofNat 58 ra.val

/-- The operand field of shape `RRR` (R88). -/
def fieldsRRR (ra rb rc : Reg) : OperandField :=
  BitVec.ofNat 19 ra.val ++ (BitVec.ofNat 19 rb.val ++ BitVec.ofNat 20 rc.val)

/-- The operand field of an instruction (R84 to R89). -/
def Instr.operands : Instr → OperandField
  | .movr ra rb => fieldsRR ra rb
  | .movi ra imm => fieldsRI ra imm
  | .ldr ra rb => fieldsRR ra rb
  | .ldi ra imm => fieldsRI ra imm
  | .str ra rb => fieldsRR ra rb
  | .sti ra imm => fieldsRI ra imm
  | .addr ra rb rc => fieldsRRR ra rb rc
  | .subr ra rb rc => fieldsRRR ra rb rc
  | .mulr ra rb rc => fieldsRRR ra rb rc
  | .divr ra rb rc => fieldsRRR ra rb rc
  | .jmpr ra => fieldsR ra
  | .jmpi imm => imm
  | .eq ra rb => fieldsRR ra rb
  | .and ra rb => fieldsRR ra rb
  | .lt ra rb => fieldsRR ra rb
  | .not ra => fieldsR ra
  | .sld raw => raw
  | .sst raw => raw
  | .spub raw => raw
  | .ssub raw => raw
  | .halt => 0

/-- The word of an instruction: the opcode ordinal in bits 63:58, the operand field in bits 57:0 (R80). -/
def encode (o : Ordinals) (i : Instr) : Word := ordinal o i.opcode ++ i.operands

end Sys2Proof
end

