-- ==== Sys2Proof/Machine/Params.lean ====
section
/-! DEFINITION. The default parameters of a constructed machine (spec/00_scope.md R8). -/

namespace Sys2Proof.Machine

/-- The parameters `State.reset` is constructed with: the spec's defaults for `ORD`, `BYTE_ORDER` and `BOUND_STRICT`
(R8), and for `MEM_SIZE`, which the spec leaves to the caller, 64 bytes. DESIGN CHOICE (notes/assumptions/1.md),
unsafe for a claim about `State.reset` alone; the statements hold for every `Config`. -/
def defaultConfig : Config where
  memSize := 64
  ord := defaultOrd
  byteOrder := .little
  boundStrict := true

end Sys2Proof.Machine
end

