-- ==== Sys2Proof/Machine/State.lean ====
section
/-! DEFINITION. The state of the turtl CORE (spec/10_state.md R20 to R40), why a step can stop, and the state after
reset (R39). -/

namespace Sys2Proof.Machine

/-- The engine status (R31). -/
inductive Status
  | idle
  | ready
  | halted
  | faulted
  deriving DecidableEq, Repr

/-- The 2-bit encoding of `status` (R31; decision D27: nothing depends on it). -/
def Status.code : Status → BitVec 2
  | .idle => 0
  | .ready => 1
  | .halted => 2
  | .faulted => 3

/-- The whole state. The fields up to `mem` are the spec's; `cfg` holds the parameters fixed at construction (R8);
`replies` and `requests` are the MODEL's own view of the storage capability port (notes/assumptions/3.md). -/
structure State where
  /-- `x[0] .. x[11]` (R20). -/
  regs : Vector Word 12
  /-- The instruction pointer, a word index into the program (R24). -/
  ip : Word
  /-- The flags word (R28). -/
  flags : Word
  /-- The engine status (R31). -/
  status : Status
  /-- The cause register of the fault record, a 3-bit code, 0 when no fault is recorded (R33). -/
  fcause : BitVec 3
  /-- The information register of the fault record (R33). -/
  finfo : Word
  /-- The program store, `PROG(0) .. PROG(PROG_LEN - 1)` (R35). -/
  prog : List Word
  /-- The data memory (R36). -/
  mem : Memory
  /-- `MEM_SIZE`, `ORD`, `BYTE_ORDER`, `BOUND_STRICT` (R8). -/
  cfg : Config
  /-- The MODEL's own: what the collaborator is already known to do with the next requests, oldest first. An input from
  outside; where it is empty the reply is the free value `Config.storageReply`. -/
  replies : List StorageReply
  /-- The MODEL's own: the requests presented on the storage capability port so far, newest first. -/
  requests : List StorageRequest
  deriving DecidableEq, Repr

/-- Why a step ends with no state after it. The five fault causes of R230 are NOT among these: each is an effect of the
machine, `status <- Faulted` with the fault record written (R236), and so a next state. -/
inductive Fault
  /-- Raised by the tick when `status` is Ready and `ip` is no index of the program. R50 says the fetch never fails,
  because no run reaches such a state (`MachineInv`): safe. -/
  | fetchOutsideProgram
  /-- Raised by SLD, SST, SPUB, SSUB when the collaborator never answers: the tick does not complete and no state after
  it exists (R201, vector V87, U7 `stuck`): safe. -/
  | storageNeverAnswers
  deriving DecidableEq, Repr

/-- Why the model gives an instruction no meaning. -/
inductive Refusal
  /-- Raised by `exec` for an instruction that has no meaning yet (none is left): safe. -/
  | notModelled (mnemonic : String)
  deriving DecidableEq, Repr

/-- The state after constructing a machine with parameters `c` (R39, R260): registers, `ip`, flags and fault record 0,
no program, every byte of memory 0, Idle. Nothing has been asked of the storage collaborator. -/
def State.construct (c : Config) : State where
  regs := Vector.replicate 12 0
  ip := 0
  flags := 0
  status := .idle
  fcause := 0
  finfo := 0
  prog := []
  mem := []
  cfg := c
  replies := []
  requests := []

/-- The machine right after reset (R39), with the default parameters. -/
def State.reset : State := State.construct defaultConfig

end Sys2Proof.Machine
end

