-- ==== Sys2Proof/Machine/Ops.lean ====
section
/-! DEFINITION. The operations the meanings share: registers, `ip`, flags (spec/00_scope.md R11), the bounds test and
the two memory transactions (spec/20_memory.md R55 to R57), taking a fault (spec/60_exceptions.md R236), the sequencing
at the end of a tick (spec/40_execution_cycle.md R130, R132), fetch (R127). There is no return from a fault (R239): the
only way out of Faulted is the host's `load` (HostPort.lean). -/

namespace Sys2Proof.Machine

/-- `x[r]` (R11). -/
def readReg (s : State) (r : Reg) : Word := s.regs[r]

/-- `x[r] <- v` (R11). No register is hardwired (R21). -/
def writeReg (r : Reg) (v : Word) (s : State) : State := { s with regs := s.regs.set r v }

/-- `flags <- v`, the whole word (R190). -/
def setFlags (v : Word) (s : State) : State := { s with flags := v }

/-- `ip <- t` (R11). -/
def setIp (t : Word) (s : State) : State := { s with ip := t }

/-- `ip <- ip + 1`, the sequencing of every instruction but the jumps (R26, R130). -/
def advance (s : State) : State := setIp (s.ip + 1) s

/-- `status <- t` (R11). -/
def setStatus (t : Status) (s : State) : State := { s with status := t }

/-- The data memory replaced. -/
def setMem (m : Memory) (s : State) : State := { s with mem := m }

/-- The five fault causes (R230, R249). -/
inductive FaultCause
  | undefinedOpcode
  | outOfBounds
  | divideByZero
  | illegalOperand
  | storageFault
  deriving DecidableEq, Repr

/-- The `fcause` code of a cause (R33, R230; decision D13). -/
def FaultCause.code : FaultCause → BitVec 3
  | .undefinedOpcode => 1
  | .outOfBounds => 2
  | .divideByZero => 3
  | .illegalOperand => 4
  | .storageFault => 5

/-- Taking a fault, `fault(c, info)` of R236: the fault record and the status are written; registers, flags, `ip`, data
memory and program stay, and control goes nowhere. -/
def raise (c : FaultCause) (info : Word) (s : State) : State :=
  { s with fcause := c.code, finfo := info, status := .faulted }

/-- An instruction that completes in state `s`. -/
def complete (s : State) : Host.Outcome State Fault Refusal := .next s

/-- An instruction that raises a fault: its effect is the fault entry, and nothing else (R133). -/
def faulting (c : FaultCause) (info : Word) (s : State) : Host.Outcome State Fault Refusal :=
  .next (raise c info s)

/-- `InBounds(a, n)` of R55, on unbounded integers. -/
def inBounds (c : Config) (a n : Nat) : Bool :=
  if c.boundStrict then decide (a + n < c.memSize) else decide (a + n ≤ c.memSize)

/-- `MemRead(ea, 8)` (R56): `none` is the response OutOfBounds (R212). -/
def memRead (s : State) (ea : Word) : Option Word :=
  if inBounds s.cfg ea.toNat 8 then some (s.mem.readWord s.cfg.byteOrder ea.toNat) else none

/-- `MemWrite(ea, 8, v)` (R57): `none` is the response OutOfBounds, with no byte written (R212). -/
def memWrite (s : State) (ea : Word) (v : Word) : Option State :=
  if inBounds s.cfg ea.toNat 8 then some (setMem (s.mem.writeWord s.cfg.byteOrder ea.toNat v) s) else none

/-- `PROG_LEN` (R35). -/
def progLen (s : State) : Nat := s.prog.length

/-- `Fetch(ip)` (R50, R127): the word `ip` indexes; `none` where `ip` is no index of the program. -/
def fetch (s : State) : Option Word := s.prog[s.ip.toNat]?

/-- The end-of-program test of R132, at the end of a tick that completed: Ready with `ip >= PROG_LEN` becomes Halted.
A tick that ended Faulted or Halted (HALT) keeps its status. -/
def endOfTick (s : State) : State :=
  if s.status = .ready ∧ progLen s ≤ s.ip.toNat then setStatus .halted s else s

end Sys2Proof.Machine
end

