-- ==== Sys2Proof/Machine/Operands.lean ====
section
/-! DEFINITION. The operand forms: a register's value, an immediate zero-extended (spec/30_encoding.md R93), and the two
addressing modes (spec/42_load_store.md R160). -/

namespace Sys2Proof.Machine

/-- `zext_64(imm54)` (R93; decision D21). -/
def zext54 (imm : Imm54) : Word := imm.setWidth 64

/-- `zext_64(imm58)` (R93; decision D21). -/
def zext58 (imm : Imm58) : Word := imm.setWidth 64

/-- The effective address of the register-indexed forms: the whole 64-bit value of `x[rb]` (R160). -/
def eaReg (rb : Reg) (s : State) : Word := readReg s rb

/-- The effective address of the immediate-indexed forms (R160). -/
def eaImm (imm : Imm54) : Word := zext54 imm

end Sys2Proof.Machine
end

