-- ==== Sys2Proof/Machine/Arithmetic.lean ====
section
/-! DEFINITION. ADDR, SUBR, MULR, DIVR (spec/43_arithmetic.md): computed on unbounded integers, then reduced modulo
2^64; no flag changes (R170). -/

namespace Sys2Proof.Machine

/-- `x[ra] <- v`, then the next instruction (R170). -/
def writeResult (ra : Reg) (v : Word) (s : State) : Host.Outcome State Fault Refusal :=
  complete (advance (writeReg ra v s))

/-- `(a + b) mod 2^64` (R171). -/
def addWrap (a b : Word) : Word := BitVec.ofNat 64 (a.toNat + b.toNat)

/-- `(a - b) mod 2^64` (R172). -/
def subWrap (a b : Word) : Word := BitVec.ofInt 64 ((a.toNat : Int) - (b.toNat : Int))

/-- `(a * b) mod 2^64` (R173). -/
def mulWrap (a b : Word) : Word := BitVec.ofNat 64 (a.toNat * b.toNat)

/-- `a div b`, the unsigned quotient rounded toward zero, for `b` not 0 (R174; decision D20). -/
def divFloor (a b : Word) : Word := BitVec.ofNat 64 (a.toNat / b.toNat)

/-- ADDR `ra rb rc` (R171). -/
def execAddr (ra rb rc : Reg) (s : State) : Host.Outcome State Fault Refusal :=
  writeResult ra (addWrap (readReg s rb) (readReg s rc)) s

/-- SUBR `ra rb rc` (R172): `rb` is the minuend. -/
def execSubr (ra rb rc : Reg) (s : State) : Host.Outcome State Fault Refusal :=
  writeResult ra (subWrap (readReg s rb) (readReg s rc)) s

/-- MULR `ra rb rc` (R173). -/
def execMulr (ra rb rc : Reg) (s : State) : Host.Outcome State Fault Refusal :=
  writeResult ra (mulWrap (readReg s rb) (readReg s rc)) s

/-- DIVR `ra rb rc` (R174): a zero divisor raises `DivideByZero(0)`, whatever the dividend (R234). -/
def execDivr (ra rb rc : Reg) (s : State) : Host.Outcome State Fault Refusal :=
  if readReg s rc = 0 then faulting .divideByZero 0 s
  else writeResult ra (divFloor (readReg s rb) (readReg s rc)) s

end Sys2Proof.Machine
end

