-- ==== Sys2Proof/Machine/Control.lean ====
section
/-! DEFINITION. JMPR, JMPI, HALT (spec/44_jump_halt.md). -/

namespace Sys2Proof.Machine

/-- A jump: the target replaces `ip` outright, no increment follows, and the target is not checked here (R130, R184). -/
def jumpTo (target : Word) (s : State) : Host.Outcome State Fault Refusal :=
  complete (setIp target s)

/-- JMPR `ra` (R180). -/
def execJmpr (ra : Reg) (s : State) : Host.Outcome State Fault Refusal :=
  jumpTo (readReg s ra) s

/-- JMPI `imm58` (R181). -/
def execJmpi (imm : Imm58) (s : State) : Host.Outcome State Fault Refusal :=
  jumpTo (zext58 imm) s

/-- HALT (R182): the ordinary increment, then `status <- Halted`. -/
def execHalt (s : State) : Host.Outcome State Fault Refusal :=
  complete (setStatus .halted (advance s))

end Sys2Proof.Machine
end

