-- ==== Sys2Proof/Machine/LoadStore.lean ====
section
/-! DEFINITION. LDR, LDI, STR, STI (spec/42_load_store.md). -/

namespace Sys2Proof.Machine

/-- A load of 8 bytes at `ea` into `x[ra]` (R160 to R162): out of bounds it raises `OutOfBounds(ea)` and changes nothing
else (R233). -/
def loadFrom (ra : Reg) (ea : Word) (s : State) : Host.Outcome State Fault Refusal :=
  match memRead s ea with
  | none => faulting .outOfBounds ea s
  | some v => complete (advance (writeReg ra v s))

/-- A store of `x[ra]` to the 8 bytes at `ea` (R160, R163, R164): out of bounds it raises `OutOfBounds(ea)` and no byte
changes (R57, R233). -/
def storeTo (ra : Reg) (ea : Word) (s : State) : Host.Outcome State Fault Refusal :=
  match memWrite s ea (readReg s ra) with
  | none => faulting .outOfBounds ea s
  | some t => complete (advance t)

/-- LDR `ra rb` (R161). -/
def execLdr (ra rb : Reg) (s : State) : Host.Outcome State Fault Refusal :=
  loadFrom ra (eaReg rb s) s

/-- LDI `ra imm54` (R162). -/
def execLdi (ra : Reg) (imm : Imm54) (s : State) : Host.Outcome State Fault Refusal :=
  loadFrom ra (eaImm imm) s

/-- STR `ra rb` (R163). -/
def execStr (ra rb : Reg) (s : State) : Host.Outcome State Fault Refusal :=
  storeTo ra (eaReg rb s) s

/-- STI `ra imm54` (R164). -/
def execSti (ra : Reg) (imm : Imm54) (s : State) : Host.Outcome State Fault Refusal :=
  storeTo ra (eaImm imm) s

end Sys2Proof.Machine
end

