-- ==== Sys2Proof/Machine/Flags.lean ====
section
/-! DEFINITION. The four results the comparison and logic instructions write into the flags word
(spec/45_compare_logic.md R190 to R194; decision D9). -/

namespace Sys2Proof.Machine

/-- `b2w(c)`: 1 where the condition holds, else 0 (spec/00_scope.md R10). -/
def b2w (c : Bool) : Word := if c then 1 else 0

/-- EQ: all 64 bits agree (R191). -/
def eqResult (a b : Word) : Word := b2w (a == b)

/-- AND: both are non-zero, a logical and (R192). -/
def andResult (a b : Word) : Word := b2w (a != 0 && b != 0)

/-- LT: unsigned less-than (R193). -/
def ltResult (a b : Word) : Word := b2w (decide (a.toNat < b.toNat))

/-- NOT: the register is zero, a logical not (R194). -/
def notResult (a : Word) : Word := b2w (a == 0)

end Sys2Proof.Machine
end

