-- ==== Sys2Proof/Machine/Logic.lean ====
section
/-! DEFINITION. EQ, AND, LT, NOT (spec/45_compare_logic.md): the result replaces the whole flags word and no register is
written (R190). -/

namespace Sys2Proof.Machine

/-- `flags <- v`, then the next instruction (R190). -/
def writeFlags (v : Word) (s : State) : Host.Outcome State Fault Refusal :=
  complete (advance (setFlags v s))

/-- EQ `ra rb` (R191). -/
def execEq (ra rb : Reg) (s : State) : Host.Outcome State Fault Refusal :=
  writeFlags (eqResult (readReg s ra) (readReg s rb)) s

/-- AND `ra rb` (R192). -/
def execAnd (ra rb : Reg) (s : State) : Host.Outcome State Fault Refusal :=
  writeFlags (andResult (readReg s ra) (readReg s rb)) s

/-- LT `ra rb` (R193). -/
def execLt (ra rb : Reg) (s : State) : Host.Outcome State Fault Refusal :=
  writeFlags (ltResult (readReg s ra) (readReg s rb)) s

/-- NOT `ra` (R194). -/
def execNot (ra : Reg) (s : State) : Host.Outcome State Fault Refusal :=
  writeFlags (notResult (readReg s ra)) s

end Sys2Proof.Machine
end

