-- ==== Sys2Proof/Machine/Move.lean ====
section
/-! DEFINITION. MOVR and MOVI (spec/41_move.md). -/

namespace Sys2Proof.Machine

/-- MOVR `ra rb` (R150): `x[ra] <- x[rb]`. -/
def execMovr (ra rb : Reg) (s : State) : Host.Outcome State Fault Refusal :=
  complete (advance (writeReg ra (readReg s rb) s))

/-- MOVI `ra imm54` (R151): `x[ra] <- zext_64(imm54)`. -/
def execMovi (ra : Reg) (imm : Imm54) (s : State) : Host.Outcome State Fault Refusal :=
  complete (advance (writeReg ra (zext54 imm) s))

end Sys2Proof.Machine
end

