-- ==== Sys2Proof/Machine/Storage.lean ====
section
/-! DEFINITION. SLD, SST, SPUB, SSUB (spec/46_storage.md): one blocking request to the storage capability and the commit
of its answer (R200 to R202). The reply is a free value; nothing about it is assumed (notes/assumptions/3.md). -/

namespace Sys2Proof.Machine

/-- The request of R201, made of the state before the instruction. -/
def requestOf (op : StorageOp) (raw : OperandField) (s : State) : StorageRequest where
  op := op
  raw58 := raw
  regs := s.regs
  flags := s.flags
  mem := s.mem

/-- The request presented: exactly one per executed storage opcode (R201). -/
def presentRequest (q : StorageRequest) (s : State) : State :=
  { s with requests := q :: s.requests, replies := s.replies.tail }

/-- What the collaborator does with request `q`: the oldest reply already known, or else the free value. -/
def replyTo (q : StorageRequest) (s : State) : StorageReply :=
  match s.replies with
  | r :: _ => r
  | [] => Config.storageReply (q :: s.requests)

/-- The answer `ok(x', flags', mem')`: registers, flags and data memory replaced wholesale, `ip` advanced (R202). -/
def commitOk (regs : Vector Word 12) (flags : Word) (mem : List Host.Cell) (s : State) : State :=
  advance { s with regs := regs, flags := flags, mem := Memory.ofCells s.cfg.memSize mem }

/-- The core's behaviour on a reply (R202, R235): `fail(code)` raises `StorageFault(code)`; where no answer ever comes the
tick does not complete (vector V87). -/
def commitReply (r : StorageReply) (s : State) : Host.Outcome State Fault Refusal :=
  match r with
  | .noAnswer => .fault .storageNeverAnswers
  | .fail code => faulting .storageFault code s
  | .ok regs flags mem => complete (commitOk regs flags mem s)

/-- One blocking call of the storage capability (R200, R201). -/
def storageCall (op : StorageOp) (raw : OperandField) (s : State) : Host.Outcome State Fault Refusal :=
  commitReply (replyTo (requestOf op raw s) s) (presentRequest (requestOf op raw s) s)

/-- SLD (R203). -/
def execSld (raw : OperandField) (s : State) : Host.Outcome State Fault Refusal :=
  storageCall .load raw s

/-- SST (R204). -/
def execSst (raw : OperandField) (s : State) : Host.Outcome State Fault Refusal :=
  storageCall .store raw s

/-- SPUB (R205). -/
def execSpub (raw : OperandField) (s : State) : Host.Outcome State Fault Refusal :=
  storageCall .publish raw s

/-- SSUB (R206). -/
def execSsub (raw : OperandField) (s : State) : Host.Outcome State Fault Refusal :=
  storageCall .subscribe raw s

end Sys2Proof.Machine
end

