-- ==== Sys2Proof/Machine/Dispatch.lean ====
section
/-! DEFINITION. Dispatch: one arm per instruction (spec/40_execution_cycle.md R129). -/

namespace Sys2Proof.Machine

def exec (i : Instr) (s : State) : Host.Outcome State Fault Refusal :=
  match i with
  | .movr ra rb => Sys2Proof.Machine.execMovr ra rb s
  | .movi ra imm => Sys2Proof.Machine.execMovi ra imm s
  | .ldr ra rb => Sys2Proof.Machine.execLdr ra rb s
  | .ldi ra imm => Sys2Proof.Machine.execLdi ra imm s
  | .str ra rb => Sys2Proof.Machine.execStr ra rb s
  | .sti ra imm => Sys2Proof.Machine.execSti ra imm s
  | .addr ra rb rc => Sys2Proof.Machine.execAddr ra rb rc s
  | .subr ra rb rc => Sys2Proof.Machine.execSubr ra rb rc s
  | .mulr ra rb rc => Sys2Proof.Machine.execMulr ra rb rc s
  | .divr ra rb rc => Sys2Proof.Machine.execDivr ra rb rc s
  | .jmpr ra => Sys2Proof.Machine.execJmpr ra s
  | .jmpi imm => Sys2Proof.Machine.execJmpi imm s
  | .eq ra rb => Sys2Proof.Machine.execEq ra rb s
  | .and ra rb => Sys2Proof.Machine.execAnd ra rb s
  | .lt ra rb => Sys2Proof.Machine.execLt ra rb s
  | .not ra => Sys2Proof.Machine.execNot ra s
  | .sld raw => Sys2Proof.Machine.execSld raw s
  | .sst raw => Sys2Proof.Machine.execSst raw s
  | .spub raw => Sys2Proof.Machine.execSpub raw s
  | .ssub raw => Sys2Proof.Machine.execSsub raw s
  | .halt => Sys2Proof.Machine.execHalt s

end Sys2Proof.Machine
end

