-- ==== Sys2Proof/Machine/Tick.lean ====
section
/-! DEFINITION. The tick (spec/40_execution_cycle.md R125 to R133), and the placing of one word where the next tick
fetches. -/

namespace Sys2Proof.Machine

/-- The fault a word that does not decode raises, with the whole word as its information (spec/60_exceptions.md R231,
R232). -/
def decodeFaulting (f : DecodeFault) (s : State) : Host.Outcome State Fault Refusal :=
  match f with
  | .undefinedOpcode w => faulting .undefinedOpcode w s
  | .illegalOperand w => faulting .illegalOperand w s

/-- What the tick adds after the instruction: the end-of-program test (R132). -/
def afterExec (o : Host.Outcome State Fault Refusal) : Host.Outcome State Fault Refusal :=
  match o with
  | .next t => .next (endOfTick t)
  | .fault f => .fault f
  | .refused r => .refused r

/-- A tick in Ready (R126): fetch, decode, execute, then the end-of-program test. The fetch cannot fail in a state a run
reaches (R50, R127). -/
def tickReady (s : State) : Host.Outcome State Fault Refusal :=
  match fetch s with
  | none => .fault .fetchOutsideProgram
  | some w =>
    match decode s.cfg.ord w with
    | .fault f => decodeFaulting f s
    | .instr i => afterExec (exec i s)

/-- One tick: in Idle, Halted and Faulted it changes nothing at all (R125). -/
def tick (s : State) : Host.Outcome State Fault Refusal :=
  match s.status with
  | .ready => tickReady s
  | .idle => .next s
  | .halted => .next s
  | .faulted => .next s

/-- `w` placed where the next tick fetches, and the engine Ready. Where `ip` indexes a word of the program, that word is
replaced; else the program is that one word, at index 0. It stands for the host's `load` (notes/assumptions/2.md). -/
def placeWord (w : Word) (s : State) : State :=
  if s.ip.toNat < s.prog.length then
    { s with prog := s.prog.set s.ip.toNat w, status := .ready }
  else
    { s with prog := [w], ip := 0, status := .ready }

end Sys2Proof.Machine
end

