-- ==== Sys2Proof/Machine/Step.lean ====
section
/-! DEFINITION. The step is the tick (spec/40_execution_cycle.md R120, R126). -/

namespace Sys2Proof.Machine

/-- One step: one `tick` of the engine. -/
def step (s : State) : Host.Outcome State Fault Refusal := tick s

/-- `s` with a table row's word (its bits at and above `nbits` zero) where the next step fetches. -/
def State.withFetchWord (s : State) (nbits w : Nat) : State :=
  placeWord (BitVec.ofNat 64 (w % 2 ^ nbits)) s

end Sys2Proof.Machine
end

