-- ==== Sys2Proof/Machine/Assembler.lean ====
section
/-! DEFINITION. The contract of the encoder's text (spec/30_encoding.md R100 to R110): one line of source to at most one
word. It is software outside the block (spec/00_scope.md R6); no step uses it. It stands here because R107 and R110 tie
the operand order of the text to the fields of the word. (notes/assumptions/7.md) -/

namespace Sys2Proof.Machine

/-- The encode-time errors (R102, R104, R105, R108). -/
inductive AsmError
  | unknownMnemonic
  | notEnoughArgs
  /-- The source's `Syntax`: the token lacks its sigil. -/
  | sigilMissing
  | invalidOperand
  | registerNumOutOfBounds
  | overflow
  /-- SLD, SST, SPUB, SSUB have no operand text and are refused by name (R110). -/
  | noOperandSyntax
  deriving DecidableEq, Repr

/-- A result of the encoder. -/
inductive Asm (α : Type)
  | ok (a : α)
  | error (e : AsmError)
  deriving DecidableEq, Repr

/-- The instruction text of a line: what stands before the first `;` (R101). -/
def stripComment (line : List Char) : List Char := line.takeWhile fun c => c != ';'

/-- The tokens of a text, separated by whitespace; `cur` is the token being read, reversed (R102). -/
def tokensFrom : List Char → List Char → List (List Char)
  | [], cur => if cur.isEmpty then [] else [cur.reverse]
  | c :: cs, cur =>
    if c.isWhitespace then
      if cur.isEmpty then tokensFrom cs [] else cur.reverse :: tokensFrom cs []
    else tokensFrom cs (c :: cur)

/-- The mnemonic of an opcode (R90; decision D2). -/
def mnemonicText : Opcode → List Char
  | .movr => "MOVR".toList
  | .movi => "MOVI".toList
  | .ldr => "LDR".toList
  | .ldi => "LDI".toList
  | .str => "STR".toList
  | .sti => "STI".toList
  | .addr => "ADDR".toList
  | .subr => "SUBR".toList
  | .mulr => "MULR".toList
  | .divr => "DIVR".toList
  | .jmpr => "JMPR".toList
  | .jmpi => "JMPI".toList
  | .eq => "EQ".toList
  | .and => "AND".toList
  | .lt => "LT".toList
  | .not => "NOT".toList
  | .sld => "SLD".toList
  | .sst => "SST".toList
  | .spub => "SPUB".toList
  | .ssub => "SSUB".toList
  | .halt => "HALT".toList

/-- The opcode a mnemonic names, case-sensitive (R102). -/
def opcodeOfText (t : List Char) : Option Opcode := Opcode.all.find? fun m => mnemonicText m == t

/-- A decimal literal: one or more digits (R103). -/
def decimal (ds : List Char) : Option Nat :=
  if ds.isEmpty then none
  else if ds.all Char.isDigit then some (ds.foldl (fun n c => 10 * n + (c.toNat - '0'.toNat)) 0)
  else none

/-- A register token, `%r` and a decimal index below 12 (R103, R105). -/
def parseReg : List Char → Asm Reg
  | '%' :: 'r' :: ds =>
    match decimal ds with
    | none => .error .invalidOperand
    | some n => if h : n < 12 then .ok ⟨n, h⟩ else .error .registerNumOutOfBounds
  | _ => .error .sigilMissing

/-- An immediate token, `$` and a decimal literal that fits the field (R103, R105, R106). -/
def parseImm (bits : Nat) : List Char → Asm (BitVec bits)
  | '$' :: ds =>
    match decimal ds with
    | none => .error .invalidOperand
    | some n => if n < 2 ^ bits then .ok (BitVec.ofNat bits n) else .error .overflow
  | _ => .error .sigilMissing

/-- The result of `a` handed on to `f`, the first error kept. -/
def Asm.andThen {α β : Type} (a : Asm α) (f : α → Asm β) : Asm β :=
  match a with
  | .ok x => f x
  | .error e => .error e

/-- Operand text of shape `RR`, left to right (R107). -/
def asmRR (mk : Reg → Reg → Instr) : List (List Char) → Asm Instr
  | [a, b] => (parseReg a).andThen fun ra => (parseReg b).andThen fun rb => .ok (mk ra rb)
  | _ => .error .notEnoughArgs

/-- Operand text of shape `RI`. -/
def asmRI (mk : Reg → Imm54 → Instr) : List (List Char) → Asm Instr
  | [a, b] => (parseReg a).andThen fun ra => (parseImm 54 b).andThen fun imm => .ok (mk ra imm)
  | _ => .error .notEnoughArgs

/-- Operand text of shape `R`. -/
def asmR (mk : Reg → Instr) : List (List Char) → Asm Instr
  | [a] => (parseReg a).andThen fun ra => .ok (mk ra)
  | _ => .error .notEnoughArgs

/-- Operand text of shape `I`. -/
def asmI (mk : Imm58 → Instr) : List (List Char) → Asm Instr
  | [a] => (parseImm 58 a).andThen fun imm => .ok (mk imm)
  | _ => .error .notEnoughArgs

/-- Operand text of shape `RRR`. -/
def asmRRR (mk : Reg → Reg → Reg → Instr) : List (List Char) → Asm Instr
  | [a, b, c] => (parseReg a).andThen fun ra => (parseReg b).andThen fun rb =>
      (parseReg c).andThen fun rc => .ok (mk ra rb rc)
  | _ => .error .notEnoughArgs

/-- Operand text of shape `N`. -/
def asmN (i : Instr) : List (List Char) → Asm Instr
  | [] => .ok i
  | _ :: _ => .error .notEnoughArgs

/-- The instruction of a mnemonic and its operand tokens (R104 to R107, R110). -/
def assembleOperands (m : Opcode) (ts : List (List Char)) : Asm Instr :=
  match m with
  | .movr => asmRR .movr ts
  | .movi => asmRI .movi ts
  | .ldr => asmRR .ldr ts
  | .ldi => asmRI .ldi ts
  | .str => asmRR .str ts
  | .sti => asmRI .sti ts
  | .addr => asmRRR .addr ts
  | .subr => asmRRR .subr ts
  | .mulr => asmRRR .mulr ts
  | .divr => asmRRR .divr ts
  | .jmpr => asmR .jmpr ts
  | .jmpi => asmI .jmpi ts
  | .eq => asmRR .eq ts
  | .and => asmRR .and ts
  | .lt => asmRR .lt ts
  | .not => asmR .not ts
  | .sld => .error .noOperandSyntax
  | .sst => .error .noOperandSyntax
  | .spub => .error .noOperandSyntax
  | .ssub => .error .noOperandSyntax
  | .halt => asmN .halt ts

/-- One source line: no word for a comment-only or blank line, else one word (R100, R101). -/
def assembleLine (o : Ordinals) (line : List Char) : Asm (Option Word) :=
  match tokensFrom (stripComment line) [] with
  | [] => .ok none
  | t :: ts =>
    match opcodeOfText t with
    | none => .error .unknownMnemonic
    | some m => (assembleOperands m ts).andThen fun i => .ok (some (encode o i))

/-- A source text, line by line: the words in source order, or the error of the first bad line and no word at all
(R108). -/
def assemble (o : Ordinals) : List (List Char) → Asm (List Word)
  | [] => .ok []
  | line :: lines =>
    (assembleLine o line).andThen fun w => (assemble o lines).andThen fun ws => .ok (w.toList ++ ws)

end Sys2Proof.Machine
end

