-- ==== Sys2Proof/Machine/HostPort.lean ====
section
/-! DEFINITION. The host port (spec/50_interfaces.md R214 to R216): `load`, reset in any state, and what a tick reports.
The host acts between ticks; no step calls these. Observation (R216) is reading the fields of the state. -/

namespace Sys2Proof.Machine

/-- `load(P)` (spec/40_execution_cycle.md R122 to R124), accepted in every state: the program replaces the old one
wholesale, registers, `ip`, flags and fault record are zeroed, `status` is Ready, or Halted for an empty program. The data
memory is not touched. -/
def load (p : List Word) (s : State) : State :=
  { s with
    prog := p
    regs := Vector.replicate 12 0
    ip := 0
    flags := 0
    fcause := 0
    finfo := 0
    status := if p.length ≥ 1 then .ready else .halted }

/-- Reset of a running machine with a new `MEM_SIZE` (spec/70_reset_and_hazards.md R260): the state of `State.construct`.
The storage collaborator is outside the machine, so its replies and the requests it has seen stay. -/
def hostReset (memSize : Nat) (s : State) : State :=
  { State.construct { s.cfg with memSize := memSize } with replies := s.replies, requests := s.requests }

/-- What a tick returns to the host (R215): the status and, when it is Faulted, the fault record. -/
structure TickReport where
  status : Status
  fault : Option (BitVec 3 × Word)
  deriving DecidableEq, Repr

/-- The report of a state after a tick (R215). -/
def report (s : State) : TickReport where
  status := s.status
  fault := if s.status = .faulted then some (s.fcause, s.finfo) else none

end Sys2Proof.Machine
end

