-- ==== Sys2Proof/Safety.lean ====
section
/-! DEFINITION. The terms the claims are made in: the invariant of the machine, what each kind of instruction changes and
what it leaves alone, and the instruction words of spec/30_encoding.md R84 to R89 written with the spec's own shifts. -/

namespace Sys2Proof.Machine

/-! ### The invariant -/

/-- What holds of the machine after construction, after every `load` and after every tick. -/
structure MachineInv (s : State) : Prop where
  /-- The data memory is in its canonical form. -/
  memWf : Memory.wf s.mem
  /-- Only addresses `0 .. MEM_SIZE - 1` hold anything (R52). -/
  memWithin : Memory.within s.cfg.memSize s.mem
  /-- `status = Ready` implies `ip < PROG_LEN` (R31). -/
  readyIp : s.status = .ready → s.ip.toNat < progLen s
  /-- `fcause != 0` if and only if `status = Faulted` (R33). -/
  faultRecorded : s.fcause ≠ 0 ↔ s.status = .faulted
  /-- The codes 6 and 7 never occur (R33). -/
  fcauseLegal : s.fcause.toNat ≤ 5
  /-- With no fault recorded the information register is 0 (R33). -/
  finfoClear : s.fcause = 0 → s.finfo = 0
  /-- `PROG_LEN` is at most `2^64 - 1` (R8). -/
  progLenBound : programWf s.prog
  /-- In Idle there is no program and `ip` is 0 (R35, R39). -/
  idleEmpty : s.status = .idle → s.prog = [] ∧ s.ip = 0
  /-- `ORD` is injective (R8). -/
  cfgWf : s.cfg.wf

/-! ### Frames -/

/-- The storage capability port is untouched: no request was presented and no reply consumed. -/
structure SamePort (s t : State) : Prop where
  replies : t.replies = s.replies
  requests : t.requests = s.requests

/-- What no ordinary instruction changes: the status, the fault record, the program, the parameters and the storage
port. -/
structure SameEngine (s t : State) : Prop where
  status : t.status = s.status
  fcause : t.fcause = s.fcause
  finfo : t.finfo = s.finfo
  prog : t.prog = s.prog
  cfg : t.cfg = s.cfg
  port : SamePort s t

/-- Every general register reads as before. -/
def SameRegs (s t : State) : Prop := ∀ r, readReg t r = readReg s r

/-- Every byte of the data memory reads as before. -/
def SameMem (s t : State) : Prop := ∀ a, t.mem.readByte a = s.mem.readByte a

/-- `x[rd] <- v`, `ip <- ip + 1`, and nothing else. -/
structure RegEffect (s t : State) (rd : Reg) (v : Word) : Prop where
  dest : readReg t rd = v
  others : ∀ r, r ≠ rd → readReg t r = readReg s r
  ip : t.ip = s.ip + 1
  flags : t.flags = s.flags
  mem : SameMem s t
  engine : SameEngine s t

/-- `flags <- v`, `ip <- ip + 1`, and nothing else. -/
structure FlagsEffect (s t : State) (v : Word) : Prop where
  flags : t.flags = v
  regs : SameRegs s t
  ip : t.ip = s.ip + 1
  mem : SameMem s t
  engine : SameEngine s t

/-- `ip <- target`, and nothing else. -/
structure JumpEffect (s t : State) (target : Word) : Prop where
  ip : t.ip = target
  regs : SameRegs s t
  flags : t.flags = s.flags
  mem : SameMem s t
  engine : SameEngine s t

/-- `ip <- ip + 1`, `status <- Halted`, and nothing else. -/
structure HaltEffect (s t : State) : Prop where
  ip : t.ip = s.ip + 1
  status : t.status = .halted
  regs : SameRegs s t
  flags : t.flags = s.flags
  mem : SameMem s t
  fcause : t.fcause = s.fcause
  finfo : t.finfo = s.finfo
  prog : t.prog = s.prog
  cfg : t.cfg = s.cfg
  port : SamePort s t

/-- The power of 256 at which byte `k` of an 8-byte access counts (R53). -/
def place (o : ByteOrder) (k : Nat) : Nat :=
  match o with
  | .little => k
  | .big => 7 - k

/-- Byte `k` of `v` in rising address order: `(v >> (8*k)) mod 256` for `little`, `(v >> (8*(7-k))) mod 256` for `big`
(R53). -/
def byteOf (o : ByteOrder) (v : Word) (k : Nat) : Byte :=
  BitVec.ofNat 8 ((v.toNat >>> (8 * place o k)) % 256)

/-- The sum over `k = 0 .. 7` of `mem[a + k] * 2^(8*k)`, or `2^(8*(7-k))` for `big` (R56). -/
def valueAt (o : ByteOrder) (m : Memory) (a : Nat) : Nat :=
  ∑ k ∈ Finset.range 8, (m.readByte (a + k)).toNat * 2 ^ (8 * place o k)

/-- The 8 bytes at `ea` hold `v`, `ip <- ip + 1`, and nothing else. -/
structure StoreEffect (s t : State) (ea v : Word) : Prop where
  bytes : ∀ k, k < 8 → t.mem.readByte (ea.toNat + k) = byteOf s.cfg.byteOrder v k
  others : ∀ a, a < ea.toNat ∨ ea.toNat + 8 ≤ a → t.mem.readByte a = s.mem.readByte a
  ip : t.ip = s.ip + 1
  regs : SameRegs s t
  flags : t.flags = s.flags
  engine : SameEngine s t

/-- A fault is taken (R236): the fault record and the status are written; registers, flags, `ip`, data memory, program and
parameters keep their values. -/
structure FaultEffect (s t : State) (c : FaultCause) (info : Word) : Prop where
  fcause : t.fcause = c.code
  finfo : t.finfo = info
  status : t.status = .faulted
  ip : t.ip = s.ip
  regs : SameRegs s t
  flags : t.flags = s.flags
  mem : SameMem s t
  prog : t.prog = s.prog
  cfg : t.cfg = s.cfg

/-- The answer `ok(x', flags', mem')` is committed (R202): `mem'` gives every byte below `MEM_SIZE`; `ip`, status, fault
record, program and parameters are not the collaborator's to change. -/
structure AnswerEffect (s t : State) (regs : Vector Word 12) (flags : Word) (mem : List Host.Cell) : Prop where
  regs : ∀ r : Reg, readReg t r = regs[r]
  flags : t.flags = flags
  mem : ∀ a, a < s.cfg.memSize → t.mem.readByte a = Memory.readByte mem a
  ip : t.ip = s.ip + 1
  status : t.status = s.status
  fcause : t.fcause = s.fcause
  finfo : t.finfo = s.finfo
  prog : t.prog = s.prog
  cfg : t.cfg = s.cfg

/-- Request `q` was presented, once, and the reply it got is used up. -/
structure RequestEffect (s t : State) (q : StorageRequest) : Prop where
  requests : t.requests = q :: s.requests
  replies : t.replies = s.replies.tail

/-- `r` is what the collaborator does with request `q` in state `s`: the oldest reply already known, or, where none is
known, the free value. -/
def Replies (s : State) (q : StorageRequest) (r : StorageReply) : Prop :=
  s.replies.head? = some r ∨ (s.replies = [] ∧ r = Config.storageReply (q :: s.requests))

/-- What a storage opcode does with each reply (R202): an answer `ok` is committed, `fail(code)` raises
`StorageFault(code)`, and without an answer the tick does not complete. -/
structure StorageEffect (s : State) (q : StorageRequest) (o : Host.Outcome State Fault Refusal) : Prop where
  ok : ∀ x f m, Replies s q (.ok x f m) → ∃ t, o = .next t ∧ AnswerEffect s t x f m ∧ RequestEffect s t q
  fail : ∀ code, Replies s q (.fail code) →
    ∃ t, o = .next t ∧ FaultEffect s t .storageFault code ∧ RequestEffect s t q
  noAnswer : Replies s q .noAnswer → o = .fault .storageNeverAnswers

/-! ### Loads and stores -/

/-- `InBounds(a, 8)` as R55 writes it. -/
def InBounds (c : Config) (a : Word) : Prop :=
  (c.boundStrict = true → a.toNat + 8 < c.memSize) ∧ (c.boundStrict = false → a.toNat + 8 ≤ c.memSize)

/-- What a load of `x[ra]` from `ea` does: in bounds it delivers the value of the 8 bytes; out of bounds it takes
`OutOfBounds(ea)` (R56, R161, R162, R233). -/
structure LoadRule (i : Instr) (ra : Reg) (ea : Word) (s : State) : Prop where
  inside : InBounds s.cfg ea → ∃ t v, exec i s = .next t ∧ RegEffect s t ra v ∧
    v.toNat = valueAt s.cfg.byteOrder s.mem ea.toNat
  outside : ¬ InBounds s.cfg ea → ∃ t, exec i s = .next t ∧ FaultEffect s t .outOfBounds ea ∧ SamePort s t

/-- What a store of `x[ra]` to `ea` does: in bounds it writes the 8 bytes; out of bounds it takes `OutOfBounds(ea)` and no
byte changes (R57, R163, R164, R233). The premise is the canonical form of memory, part of `MachineInv`. -/
structure StoreRule (i : Instr) (ra : Reg) (ea : Word) (s : State) : Prop where
  inside : Memory.wf s.mem → InBounds s.cfg ea → ∃ t, exec i s = .next t ∧ StoreEffect s t ea (readReg s ra)
  outside : ¬ InBounds s.cfg ea → ∃ t, exec i s = .next t ∧ FaultEffect s t .outOfBounds ea ∧ SamePort s t

/-! ### The instruction words of R84 to R89 -/

/-- `(opc << 58) | (ra << 54) | rb` (R84), and with an immediate for `rb` (R85). -/
def word4x54 (opc : BitVec 6) (ra : BitVec 4) (low : BitVec 54) : Word :=
  (opc.setWidth 64 <<< 58) ||| (ra.setWidth 64 <<< 54) ||| low.setWidth 64

/-- `(opc << 58) | low` (R86, R87, R89). -/
def word58 (opc : BitVec 6) (low : BitVec 58) : Word :=
  (opc.setWidth 64 <<< 58) ||| low.setWidth 64

/-- `(opc << 58) | (ra << 39) | (rb << 20) | rc` (R88). -/
def word19x19x20 (opc : BitVec 6) (ra rb : BitVec 19) (rc : BitVec 20) : Word :=
  (opc.setWidth 64 <<< 58) ||| (ra.setWidth 64 <<< 39) ||| (rb.setWidth 64 <<< 20) ||| rc.setWidth 64

/-- The word `w` is illegal in its operands. -/
def Illegal (o : Ordinals) (w : Word) : Prop := decode o w = .fault (.illegalOperand w)

/-- Every word of opcode `m`, of shape `RR`: the default ordinal is `n`; under every injective `ORD` the word decodes to
`mk ra rb` when both fields are below 12 and is illegal otherwise (R84, R92). -/
def WordsRR (m : Opcode) (n : BitVec 6) (mk : Reg → Reg → Instr) : Prop :=
  ordinal defaultOrd m = n ∧
  ∀ o, Ordinals.wf o → ∀ (ra : BitVec 4) (rb : BitVec 54),
    (∀ (ha : ra.toNat < 12) (hb : rb.toNat < 12),
      decode o (word4x54 (ordinal o m) ra rb) = .instr (mk ⟨ra.toNat, ha⟩ ⟨rb.toNat, hb⟩)) ∧
    (12 ≤ ra.toNat ∨ 12 ≤ rb.toNat → Illegal o (word4x54 (ordinal o m) ra rb))

/-- Every word of opcode `m`, of shape `RI` (R85, R92, R93). -/
def WordsRI (m : Opcode) (n : BitVec 6) (mk : Reg → Imm54 → Instr) : Prop :=
  ordinal defaultOrd m = n ∧
  ∀ o, Ordinals.wf o → ∀ (ra : BitVec 4) (imm : BitVec 54),
    (∀ (ha : ra.toNat < 12),
      decode o (word4x54 (ordinal o m) ra imm) = .instr (mk ⟨ra.toNat, ha⟩ imm)) ∧
    (12 ≤ ra.toNat → Illegal o (word4x54 (ordinal o m) ra imm))

/-- Every word of opcode `m`, of shape `R` (R86, R92). -/
def WordsR (m : Opcode) (n : BitVec 6) (mk : Reg → Instr) : Prop :=
  ordinal defaultOrd m = n ∧
  ∀ o, Ordinals.wf o → ∀ (ra : BitVec 58),
    (∀ (ha : ra.toNat < 12), decode o (word58 (ordinal o m) ra) = .instr (mk ⟨ra.toNat, ha⟩)) ∧
    (12 ≤ ra.toNat → Illegal o (word58 (ordinal o m) ra))

/-- Every word of opcode `m`, of shape `I` or `X` (R87, R89): every field value is legal. -/
def WordsField (m : Opcode) (n : BitVec 6) (mk : OperandField → Instr) : Prop :=
  ordinal defaultOrd m = n ∧
  ∀ o, Ordinals.wf o → ∀ (f : BitVec 58), decode o (word58 (ordinal o m) f) = .instr (mk f)

/-- Every word of opcode `m`, of shape `RRR` (R88, R92). -/
def WordsRRR (m : Opcode) (n : BitVec 6) (mk : Reg → Reg → Reg → Instr) : Prop :=
  ordinal defaultOrd m = n ∧
  ∀ o, Ordinals.wf o → ∀ (ra rb : BitVec 19) (rc : BitVec 20),
    (∀ (ha : ra.toNat < 12) (hb : rb.toNat < 12) (hc : rc.toNat < 12),
      decode o (word19x19x20 (ordinal o m) ra rb rc) =
        .instr (mk ⟨ra.toNat, ha⟩ ⟨rb.toNat, hb⟩ ⟨rc.toNat, hc⟩)) ∧
    (12 ≤ ra.toNat ∨ 12 ≤ rb.toNat ∨ 12 ≤ rc.toNat → Illegal o (word19x19x20 (ordinal o m) ra rb rc))

/-- Every word of opcode `m`, of shape `N` (R89): only the zero field is legal. -/
def WordsN (m : Opcode) (n : BitVec 6) (i : Instr) : Prop :=
  ordinal defaultOrd m = n ∧
  ∀ o, Ordinals.wf o → ∀ (f : BitVec 58),
    (f = 0 → decode o (word58 (ordinal o m) f) = .instr i) ∧
    (f ≠ 0 → Illegal o (word58 (ordinal o m) f))

/-- The engine is Ready and the word at `ip` decodes to `i`. -/
def Runs (s : State) (i : Instr) : Prop :=
  s.status = .ready ∧ ∃ w, fetch s = some w ∧ decode s.cfg.ord w = .instr i

end Sys2Proof.Machine
end

