-- ==== Sys2Proof/Certificates/Slice0/Obligations.lean ====
section
/-! DEFINITION. The statements for the provers. Where a docstring names a decision D<n>, that is the spec's own choice
(spec/92_eei_decisions.md); where it names notes/assumptions, the model's. Every statement holds for every `MEM_SIZE`,
`BYTE_ORDER`, `BOUND_STRICT` and injective `ORD`, since the state carries them. -/

open Sys2Proof Sys2Proof.Machine

/-! ### Construction and load -/

/-- R39, R260 (decisions D13, D19): construction, and reset in any state, leave registers, `ip`, flags and fault record 0,
Idle, no program, all memory bytes 0. -/
def Obligations.ConstructionLeavesEverythingZero : Prop :=
  ∀ (c : Config) (n : Nat) (s t : State), (t = State.construct c ∨ t = hostReset n s) →
    (∀ r, readReg t r = 0) ∧ t.ip = 0 ∧ t.flags = 0 ∧ t.status = .idle ∧ t.fcause = 0 ∧ t.finfo = 0 ∧ t.prog = [] ∧
    (∀ a, t.mem.readByte a = 0) ∧ (State.construct c).cfg = c ∧ (hostReset n s).cfg = { s.cfg with memSize := n }

/-- R122: `load(P)` in any state. -/
def Obligations.LoadInstallsProgramAndZeroesState : Prop :=
  ∀ (p : List Word) (s : State), (load p s).prog = p ∧ progLen (load p s) = p.length ∧ (∀ r, readReg (load p s) r = 0) ∧
    (load p s).ip = 0 ∧ (load p s).flags = 0 ∧ (load p s).fcause = 0 ∧ (load p s).finfo = 0 ∧
    (load p s).status = (if p.length ≥ 1 then .ready else .halted) ∧
    SameMem s (load p s) ∧ (load p s).cfg = s.cfg ∧ SamePort s (load p s)

/-! ### Decoding -/

/-- R94: a word whose top 6 bits are no opcode's ordinal faults with `UndefinedOpcode` when the tick decodes it; with the
default `ORD` these are the words from 0x5400000000000000 up. -/
def Obligations.UndefinedOpcodeWordsFault : Prop :=
  (∀ (o : Ordinals) (w : Word), (∀ m, ordinal o m ≠ w.extractLsb' 58 6) →
    decode o w = .fault (.undefinedOpcode w)) ∧
  (∀ w : Word, 0x5400000000000000 ≤ w.toNat ↔ decode defaultOrd w = .fault (.undefinedOpcode w)) ∧
  (∀ (s : State) (w : Word), s.status = .ready → fetch s = some w → (∀ m, ordinal s.cfg.ord m ≠ w.extractLsb' 58 6) →
    ∃ t, step s = .next t ∧ FaultEffect s t .undefinedOpcode w ∧ SamePort s t)

/-- R95 (decision D12): a word of a defined opcode whose operand field fails the check raises `IllegalOperand` when the
tick decodes it, before anything is executed; and exactly such a word does. -/
def Obligations.IllegalOperandWordsFault : Prop :=
  (∀ (o : Ordinals) (w : Word) (m : Opcode), Ordinals.wf o → ordinal o m = w.extractLsb' 58 6 →
    (RawInstr.wellFormed ⟨m, w.extractLsb' 0 58⟩ = false ↔ decode o w = .fault (.illegalOperand w))) ∧
  (∀ (s : State) (w : Word) (m : Opcode), s.cfg.wf → s.status = .ready → fetch s = some w →
    ordinal s.cfg.ord m = w.extractLsb' 58 6 → RawInstr.wellFormed ⟨m, w.extractLsb' 0 58⟩ = false →
    ∃ t, step s = .next t ∧ FaultEffect s t .illegalOperand w ∧ SamePort s t)

/-- R98, its first sentence: decoding an encoded instruction gives it back, for every instruction with every operand, and
every injective `ORD`. -/
def Obligations.DecodeOfEncodeIsIdentity : Prop :=
  ∀ (o : Ordinals), Ordinals.wf o → ∀ i : Instr, decode o (encode o i) = .instr i

/-- R96 and the second sentence of R98, which the spec derives: a word that decodes is the encoding of what it decodes to,
so no two words decode to the same instruction. (The model keeps `raw58`, so this holds of shape `X` as well.) -/
def Obligations.EncodeOfDecodeIsIdentity : Prop :=
  ∀ (o : Ordinals) (w : Word) (i : Instr), decode o w = .instr i →
    encode o i = w ∧ ∀ w', decode o w' = .instr i → w' = w

/-- Words spelled out from R110's table and the vectors of spec/95_test_vectors.md decode to the instructions they stand
for (decisions D1, D2). -/
def Obligations.SpelledWordsDecode : Prop :=
  decode defaultOrd 0x0440_0000_0000_000D = .instr (.movi 1 13) ∧
  decode defaultOrd 0x0140_0000_0000_0002 = .instr (.movr 5 2) ∧
  decode defaultOrd 0x1800_0180_0010_0002 = .instr (.addr 3 1 2) ∧
  decode defaultOrd 0x1140_0000_0000_0003 = .instr (.str 5 3) ∧
  decode defaultOrd 0x0C80_0000_0000_0010 = .instr (.ldi 2 16) ∧
  decode defaultOrd 0x2C00_0000_0000_0007 = .instr (.jmpi 7) ∧
  decode defaultOrd 0x3C00_0000_0000_0001 = .instr (.not 1) ∧
  decode defaultOrd 0x43FF_FFFF_FFFF_FFFF = .instr (.sld 0x3FF_FFFF_FFFF_FFFF) ∧
  decode defaultOrd 0x5000_0000_0000_0000 = .instr .halt

/-! ### Moves -/

/-- R150 (decisions D2, D4): `x[ra] <- x[rb]`. -/
def Obligations.MovrCopiesRegister : Prop :=
  WordsRR .movr 0 .movr ∧
  ∀ (ra rb : Reg) (s : State), ∃ t, exec (.movr ra rb) s = .next t ∧ RegEffect s t ra (readReg s rb)

/-- R151 (decision D1): `x[ra] <- zext_64(imm54)`. -/
def Obligations.MoviLoadsImmediate : Prop :=
  WordsRI .movi 1 .movi ∧
  ∀ (ra : Reg) (imm : Imm54) (s : State), ∃ t v, exec (.movi ra imm) s = .next t ∧ RegEffect s t ra v ∧
    v.toNat = imm.toNat

/-! ### Loads and stores -/

/-- R161: load from the address in `x[rb]`. -/
def Obligations.LdrLoadsFromRegisterAddress : Prop :=
  WordsRR .ldr 2 .ldr ∧ ∀ (ra rb : Reg) (s : State), LoadRule (.ldr ra rb) ra (readReg s rb) s

/-- R162: load from the zero-extended immediate address. -/
def Obligations.LdiLoadsFromImmediateAddress : Prop :=
  WordsRI .ldi 3 .ldi ∧
  ∀ (ra : Reg) (imm : Imm54) (s : State), LoadRule (.ldi ra imm) ra (BitVec.ofNat 64 imm.toNat) s

/-- R163: store `x[ra]` to the address in `x[rb]`. -/
def Obligations.StrStoresToRegisterAddress : Prop :=
  WordsRR .str 4 .str ∧ ∀ (ra rb : Reg) (s : State), StoreRule (.str ra rb) ra (readReg s rb) s

/-- R164: store `x[ra]` to the zero-extended immediate address. -/
def Obligations.StiStoresToImmediateAddress : Prop :=
  WordsRI .sti 5 .sti ∧
  ∀ (ra : Reg) (imm : Imm54) (s : State), StoreRule (.sti ra imm) ra (BitVec.ofNat 64 imm.toNat) s

/-! ### Arithmetic -/

/-- R171: the sum modulo 2^64; overflow never faults. -/
def Obligations.AddrAddsModulo : Prop :=
  WordsRRR .addr 6 .addr ∧
  ∀ (ra rb rc : Reg) (s : State), ∃ t v, exec (.addr ra rb rc) s = .next t ∧ RegEffect s t ra v ∧
    v.toNat = ((readReg s rb).toNat + (readReg s rc).toNat) % 2 ^ 64

/-- R172: the difference modulo 2^64, `rb` the minuend. -/
def Obligations.SubrSubtractsModulo : Prop :=
  WordsRRR .subr 7 .subr ∧
  ∀ (ra rb rc : Reg) (s : State), ∃ t v, exec (.subr ra rb rc) s = .next t ∧ RegEffect s t ra v ∧
    (v.toNat : Int) = ((readReg s rb).toNat - (readReg s rc).toNat : Int) % 2 ^ 64

/-- R173: the low 64 bits of the product. -/
def Obligations.MulrMultipliesModulo : Prop :=
  WordsRRR .mulr 8 .mulr ∧
  ∀ (ra rb rc : Reg) (s : State), ∃ t v, exec (.mulr ra rb rc) s = .next t ∧ RegEffect s t ra v ∧
    v.toNat = ((readReg s rb).toNat * (readReg s rc).toNat) % 2 ^ 64

/-- R174 (decision D20): the unsigned quotient rounded toward zero; a zero divisor takes `DivideByZero(0)`, whatever the
dividend. -/
def Obligations.DivrDividesOrFaults : Prop :=
  WordsRRR .divr 9 .divr ∧
  ∀ (ra rb rc : Reg) (s : State),
    (readReg s rc ≠ 0 → ∃ t v, exec (.divr ra rb rc) s = .next t ∧ RegEffect s t ra v ∧
      ∃ r, (readReg s rb).toNat = v.toNat * (readReg s rc).toNat + r ∧ r < (readReg s rc).toNat) ∧
    (readReg s rc = 0 → ∃ t, exec (.divr ra rb rc) s = .next t ∧ FaultEffect s t .divideByZero 0 ∧ SamePort s t)

/-! ### Control transfer -/

/-- R180 (decision D2): the whole 64-bit register value replaces `ip`. -/
def Obligations.JmprJumpsToRegister : Prop :=
  WordsR .jmpr 10 .jmpr ∧
  ∀ (ra : Reg) (s : State), ∃ t, exec (.jmpr ra) s = .next t ∧ JumpEffect s t (readReg s ra)

/-- R181: the zero-extended immediate replaces `ip`. -/
def Obligations.JmpiJumpsToImmediate : Prop :=
  WordsField .jmpi 11 .jmpi ∧
  ∀ (imm : Imm58) (s : State), ∃ t target, exec (.jmpi imm) s = .next t ∧ JumpEffect s t target ∧
    target.toNat = imm.toNat

/-- R182 (decision D3): `ip <- ip + 1`, `status <- Halted`; the operand field must be zero. -/
def Obligations.HaltAdvancesAndHalts : Prop :=
  WordsN .halt 20 .halt ∧ ∀ s : State, ∃ t, exec .halt s = .next t ∧ HaltEffect s t

/-! ### Comparison and logic (decision D9) -/

/-- R191. -/
def Obligations.EqComparesRegisters : Prop :=
  WordsRR .eq 12 .eq ∧
  ∀ (ra rb : Reg) (s : State), ∃ t, exec (.eq ra rb) s = .next t ∧
    FlagsEffect s t (if readReg s ra = readReg s rb then 1 else 0)

/-- R192. -/
def Obligations.AndIsLogical : Prop :=
  WordsRR .and 13 .and ∧
  ∀ (ra rb : Reg) (s : State), ∃ t, exec (.and ra rb) s = .next t ∧
    FlagsEffect s t (if readReg s ra ≠ 0 ∧ readReg s rb ≠ 0 then 1 else 0)

/-- R193. -/
def Obligations.LtComparesUnsigned : Prop :=
  WordsRR .lt 14 .lt ∧
  ∀ (ra rb : Reg) (s : State), ∃ t, exec (.lt ra rb) s = .next t ∧
    FlagsEffect s t (if (readReg s ra).toNat < (readReg s rb).toNat then 1 else 0)

/-- R194. -/
def Obligations.NotTestsForZero : Prop :=
  WordsR .not 15 .not ∧
  ∀ (ra : Reg) (s : State), ∃ t, exec (.not ra) s = .next t ∧
    FlagsEffect s t (if readReg s ra = 0 then 1 else 0)

/-! ### Storage (decision D17; the source of the reply is the model's choice, notes/assumptions/3.md) -/

/-- R203. -/
def Obligations.SldCallsStorageLoad : Prop :=
  WordsField .sld 16 .sld ∧
  ∀ (raw : OperandField) (s : State), StorageEffect s ⟨.load, raw, s.regs, s.flags, s.mem⟩ (exec (.sld raw) s)

/-- R204. -/
def Obligations.SstCallsStorageStore : Prop :=
  WordsField .sst 17 .sst ∧
  ∀ (raw : OperandField) (s : State), StorageEffect s ⟨.store, raw, s.regs, s.flags, s.mem⟩ (exec (.sst raw) s)

/-- R205. -/
def Obligations.SpubCallsStoragePublish : Prop :=
  WordsField .spub 18 .spub ∧
  ∀ (raw : OperandField) (s : State), StorageEffect s ⟨.publish, raw, s.regs, s.flags, s.mem⟩ (exec (.spub raw) s)

/-- R206. -/
def Obligations.SsubCallsStorageSubscribe : Prop :=
  WordsField .ssub 19 .ssub ∧
  ∀ (raw : OperandField) (s : State), StorageEffect s ⟨.subscribe, raw, s.regs, s.flags, s.mem⟩ (exec (.ssub raw) s)

/-- R202, its `ok` arm (decision D17): where the state holds an answer `ok(x, f, m)` as the next reply, each storage opcode
completes with it. The list of known replies is the model's own (notes/assumptions/3.md), and so is the last clause, that an
address at or above `MEM_SIZE` reads as 0 (notes/assumptions/10.md). Of the record of requests, which grows by one,
`OneRequestPerStorageOpcode` speaks, not this statement. -/
def Obligations.StorageOpcodesCompleteOnAnswer : Prop :=
  ∀ (i : Instr) (raw : OperandField) (s : State) (x : Vector Word 12) (f : Word) (m : List Host.Cell)
    (rest : List StorageReply),
    (i = .sld raw ∨ i = .sst raw ∨ i = .spub raw ∨ i = .ssub raw) → s.replies = .ok x f m :: rest →
    ∃ t, exec i s = .next t ∧ AnswerEffect s t x f m ∧ t.replies = rest ∧
      (∀ a, s.cfg.memSize ≤ a → t.mem.readByte a = 0)

/-! ### The tick -/

/-- R126: fetch the word at `ip`, decode it, execute, then the end-of-program test; or the fault. -/
def Obligations.StepRunsDecodedInstruction : Prop :=
  ∀ (s : State) (w : Word), s.status = .ready → s.prog[s.ip.toNat]? = some w →
    (∀ i, decode s.cfg.ord w = .instr i →
      (∀ u, exec i s = .next u →
        step s = .next (if u.status = .ready ∧ s.prog.length ≤ u.ip.toNat then setStatus .halted u else u)) ∧
      (∀ f, exec i s = .fault f → step s = .fault f) ∧ (∀ r, exec i s ≠ .refused r)) ∧
    (decode s.cfg.ord w = .fault (.undefinedOpcode w) →
      ∃ t, step s = .next t ∧ FaultEffect s t .undefinedOpcode w ∧ SamePort s t) ∧
    (decode s.cfg.ord w = .fault (.illegalOperand w) →
      ∃ t, step s = .next t ∧ FaultEffect s t .illegalOperand w ∧ SamePort s t)

/-- R26, R130: an instruction that completes advances `ip` by one, unless it is a jump, whose target replaces `ip`; one that
faults leaves `ip` where it is. -/
def Obligations.SequencingOfEveryInstruction : Prop :=
  ∀ (s t : State) (i : Instr), Runs s i → step s = .next t →
    (t.status = .faulted → t.ip = s.ip) ∧
    (t.status ≠ .faulted →
      (∀ ra, i = .jmpr ra → t.ip = readReg s ra) ∧ (∀ imm, i = .jmpi imm → t.ip.toNat = imm.toNat) ∧
      (i.opcode ≠ .jmpr → i.opcode ≠ .jmpi → t.ip = s.ip + 1))

/-- R125 (decision D15): a tick in Idle, Halted or Faulted changes nothing at all. -/
def Obligations.TickOutsideReadyChangesNothing : Prop :=
  ∀ s : State, (s.status = .idle ∨ s.status = .halted ∨ s.status = .faulted) → step s = .next s

/-- R121: the transition table of `status`. Its rows rest in part on the spec's decisions: reset to Idle from any state (R260,
D19), `load` from Ready, Halted and Faulted (R123, D16), the empty program (R124, D16), the tick outside Ready (R125, D15),
Halted at a target past the end (R132, D11). -/
def Obligations.StatusTransitionTable : Prop :=
  (∀ c, (State.construct c).status = .idle) ∧
  (∀ n s, (hostReset n s).status = .idle) ∧
  (∀ p s, p ≠ [] → (load p s).status = .ready) ∧
  (∀ s, (load [] s).status = .halted) ∧
  (∀ s, s.status ≠ .ready → step s = .next s) ∧
  (∀ s i u, Runs s i → exec i s = .next u → u.status ≠ .faulted →
    ∃ t, step s = .next t ∧ t.ip = u.ip ∧
      (i = .halt ∨ progLen s ≤ u.ip.toNat → t.status = .halted) ∧
      (i ≠ .halt ∧ u.ip.toNat < progLen s → t.status = .ready)) ∧
  (∀ s i u, Runs s i → exec i s = .next u → u.status = .faulted → step s = .next u) ∧
  (∀ s w f, s.status = .ready → fetch s = some w → decode s.cfg.ord w = .fault f →
    ∃ t, step s = .next t ∧ t.status = .faulted)

/-- R133: a tick that ends Faulted has changed the status and the fault record, and nothing else the spec gives the
machine. -/
def Obligations.FaultedTickChangesOnlyFaultRecord : Prop :=
  (∀ s t, s.status = .ready → step s = .next t → t.status = .faulted →
    ∃ c info, FaultEffect s t c info ∧ fetch t = fetch s) ∧
  (∀ s w f, s.status = .ready → fetch s = some w → decode s.cfg.ord w = .fault f →
    ∃ t, step s = .next t ∧ t.status = .faulted) ∧
  (∀ s i u, Runs s i → exec i s = .next u → u.status = .faulted → step s = .next u)

/-- R134: no number of ticks leaves Halted or Faulted; only `load` and reset do, and `load` of a program makes it Ready. -/
def Obligations.HaltedAndFaultedAreTerminal : Prop :=
  ∀ s : State, (s.status = .halted ∨ s.status = .faulted) →
    (∀ n, Host.Core.run core n s = .next s) ∧ (∀ p, p ≠ [] → (load p s).status = .ready) ∧
    (∀ n, (hostReset n s).status = .idle)

/-- R65: no tick changes the program, and a fetch after a `load` sees the new program in full. -/
def Obligations.ProgramChangesOnlyByLoad : Prop :=
  (∀ s t, step s = .next t → t.prog = s.prog) ∧ (∀ p s, (load p s).prog = p ∧ fetch (load p s) = p[0]?)

/-- R52: every byte is 0 after construction; a tick never changes the capacity, and changes a byte only where it completes
a store or a storage opcode. -/
def Obligations.MemoryChangesOnlyByStores : Prop :=
  (∀ c a, (State.construct c).mem.readByte a = 0) ∧
  (∀ p s, SameMem s (load p s)) ∧
  (∀ s t, step s = .next t → t.cfg.memSize = s.cfg.memSize ∧
    ∀ a, t.mem.readByte a ≠ s.mem.readByte a →
      t.status ≠ .faulted ∧ ∃ i, Runs s i ∧ (i.opcode = .str ∨ i.opcode = .sti ∨ i.opcode.isStorage = true))

/-- R213, which the spec derives: an ordinary instruction writes at most one register. -/
def Obligations.AtMostOneRegisterPerTick : Prop :=
  ∀ s t, step s = .next t → (∀ i, Runs s i → i.opcode.isStorage = false) →
    ∃ rd, ∀ r, r ≠ rd → readReg t r = readReg s r

/-- R29 (with D19 in its reset row): of all instructions only EQ, AND, LT, NOT and the storage opcodes change the flags
word. -/
def Obligations.FlagsWrittenOnlyByComparisons : Prop :=
  ∀ s t, step s = .next t → t.flags ≠ s.flags →
    ∃ i, Runs s i ∧ (i.opcode = .eq ∨ i.opcode = .and ∨ i.opcode = .lt ∨ i.opcode = .not ∨ i.opcode.isStorage = true)

/-- R29, R183: no ordinary instruction reads the flags word. From two states that differ in it alone, a tick leads to two
states that differ at most in it. -/
def Obligations.FlagsAreNeverRead : Prop :=
  ∀ (s t : State) (f : Word), (∀ i, Runs s i → i.opcode.isStorage = false) → step s = .next t →
    ∃ t', step (setFlags f s) = .next t' ∧ setFlags t.flags t' = t ∧
      (t'.flags = t.flags ∨ (t'.flags = f ∧ t.flags = s.flags))

/-- R28 (decision D10): a tick without a storage opcode keeps the flags word 0 or 1. (A storage answer may set any value,
R202; notes/assumptions/4.md.) -/
def Obligations.FlagsStayBoolean : Prop :=
  ∀ s t, (∀ i, Runs s i → i.opcode.isStorage = false) → step s = .next t → (s.flags = 0 ∨ s.flags = 1) →
    (t.flags = 0 ∨ t.flags = 1)

/-! ### The invariant -/

/-- R31, R33, R39: a constructed machine meets the invariant, `State.reset` among them. -/
def Obligations.ConstructionMeetsInvariant : Prop :=
  (∀ c : Config, c.wf → MachineInv (State.construct c)) ∧ MachineInv State.reset

/-- R31, R33: every tick keeps the invariant. -/
def Obligations.StepKeepsInvariant : Prop :=
  ∀ s t, MachineInv s → step s = .next t → MachineInv t

/-- R31, R33: `load` of a program within R8's bound, and reset, keep the invariant. -/
def Obligations.LoadAndResetKeepInvariant : Prop :=
  ∀ s, MachineInv s → (∀ p, programWf p → MachineInv (load p s)) ∧ (∀ n, MachineInv (hostReset n s))

/-- R50, R127, R137: in a state the invariant admits the fetch never fails, no instruction is refused, and the only tick
without a state after it is a storage opcode that never gets an answer. -/
def Obligations.TickStopsOnlyWithoutAnswer : Prop :=
  ∀ s, MachineInv s →
    (s.status = .ready → ∃ w, fetch s = some w) ∧
    (∀ r, step s ≠ .refused r) ∧
    (∀ f, step s = .fault f → f = .storageNeverAnswers ∧ ∃ i, Runs s i ∧ i.opcode.isStorage = true) ∧
    ((∀ i, Runs s i → i.opcode.isStorage = false) → ∃ t, step s = .next t)

/-- R27, which the spec derives: `ip + 1` never wraps in a tick. -/
def Obligations.IncrementNeverWraps : Prop :=
  ∀ s, MachineInv s → s.status = .ready → (s.ip + 1).toNat = s.ip.toNat + 1

/-! ### Memory -/

/-- R57: `MemWrite(a, 8, v)` writes all 8 bytes or raises `OutOfBounds(a)` and writes none. -/
def Obligations.MemWriteAllOrNothing : Prop :=
  ∀ (s : State) (a v : Word),
    (Memory.wf s.mem → InBounds s.cfg a → ∃ t, memWrite s a v = some t ∧
      (∀ k, k < 8 → t.mem.readByte (a.toNat + k) = byteOf s.cfg.byteOrder v k) ∧
      (∀ b, b < a.toNat ∨ a.toNat + 8 ≤ b → t.mem.readByte b = s.mem.readByte b) ∧
      SameRegs s t ∧ t.flags = s.flags ∧ t.ip = s.ip ∧ SameEngine s t) ∧
    (¬ InBounds s.cfg a → memWrite s a v = none ∧
      ∀ ra, ∃ t, storeTo ra a s = .next t ∧ FaultEffect s t .outOfBounds a ∧ SamePort s t)

/-- R56: `MemRead(a, 8)` delivers the sum of the 8 bytes at their weights or raises `OutOfBounds(a)`. -/
def Obligations.MemReadAssemblesBytes : Prop :=
  ∀ (s : State) (a : Word),
    (InBounds s.cfg a → ∃ v, memRead s a = some v ∧ v.toNat = valueAt s.cfg.byteOrder s.mem a.toNat) ∧
    (¬ InBounds s.cfg a → memRead s a = none ∧
      ∀ ra, ∃ t, loadFrom ra a s = .next t ∧ FaultEffect s t .outOfBounds a ∧ SamePort s t)

/-- R55 (decision D8): the bounds test, on unbounded integers, with its consequences for the last byte, a small memory and
the highest address. -/
def Obligations.BoundsTestIsUnbounded : Prop :=
  (∀ (c : Config) (a : Word), inBounds c a.toNat 8 = true ↔ InBounds c a) ∧
  (∀ (c : Config) (a : Word), c.boundStrict = true →
    (c.memSize ≤ 8 → ¬ InBounds c a) ∧ (InBounds c a → a.toNat ≤ c.memSize - 9 ∧ a.toNat + 7 ≠ c.memSize - 1)) ∧
  (∀ (c : Config) (a : Word), c.memSize ≤ 2 ^ 64 → a.toNat = 2 ^ 64 - 1 → ¬ InBounds c a)

/-- R62: a load from where a store has just stored returns the stored value, in the register and the immediate forms. -/
def Obligations.LoadReturnsStoredValue : Prop :=
  ∀ (s : State) (ra rc : Reg), Memory.wf s.mem →
    (∀ rb : Reg, InBounds s.cfg (readReg s rb) → ∃ t u, exec (.str ra rb) s = .next t ∧
      exec (.ldr rc rb) t = .next u ∧ readReg u rc = readReg s ra) ∧
    (∀ imm : Imm54, InBounds s.cfg (BitVec.ofNat 64 imm.toNat) → ∃ t u, exec (.sti ra imm) s = .next t ∧
      exec (.ldi rc imm) t = .next u ∧ readReg u rc = readReg s ra)

/-- The model's own (the canonical form of memory): two memories in canonical form that read alike are equal. -/
def Obligations.MemoriesThatReadAlikeAreEqual : Prop :=
  ∀ m m' : Memory, Memory.wf m → Memory.wf m' → (∀ a, m.readByte a = m'.readByte a) → m = m'

/-! ### Faults, ports, atomicity -/

/-- R230, R236 (decisions D13, D14): the codes of the five causes, and the entry into a fault. -/
def Obligations.FaultEntryRecordsCause : Prop :=
  FaultCause.undefinedOpcode.code = 1 ∧ FaultCause.outOfBounds.code = 2 ∧ FaultCause.divideByZero.code = 3 ∧
  FaultCause.illegalOperand.code = 4 ∧ FaultCause.storageFault.code = 5 ∧
  ∀ (c : FaultCause) (info : Word) (s : State), FaultEffect s (raise c info s) c info ∧ SamePort s (raise c info s)

/-- R201 (decision D17; the record of requests is the model's own, notes/assumptions/3.md): a tick that runs a storage
opcode presents exactly one request, made of the state before it, and no other tick presents any. -/
def Obligations.OneRequestPerStorageOpcode : Prop :=
  ∀ s t, step s = .next t →
    ((∀ i, Runs s i → i.opcode.isStorage = false) → SamePort s t) ∧
    (∀ i, Runs s i → i.opcode.isStorage = true →
      ∃ op, RequestEffect s t ⟨op, i.operands, s.regs, s.flags, s.mem⟩)

/-- R131, its examples: a destination that is also a source is read before it is written. -/
def Obligations.SourcesReadBeforeDestination : Prop :=
  ∀ (r : Reg) (s : State),
    (∃ t, exec (.addr r r r) s = .next t ∧ (readReg t r).toNat = (2 * (readReg s r).toNat) % 2 ^ 64) ∧
    (∃ t, exec (.movr r r) s = .next t ∧ SameRegs s t) ∧
    (InBounds s.cfg (readReg s r) → ∃ t, exec (.ldr r r) s = .next t ∧
      (readReg t r).toNat = valueAt s.cfg.byteOrder s.mem (readReg s r).toNat)

/-- R184 (decision D11): a jump never faults, whatever its target; the tick ends Halted with `ip` at a target past the
end, else Ready. -/
def Obligations.JumpTargetsNeverFault : Prop :=
  ∀ (s : State) (i : Instr) (target : Word), Runs s i →
    ((∃ ra, i = .jmpr ra ∧ target = readReg s ra) ∨ (∃ imm, i = .jmpi imm ∧ target.toNat = imm.toNat)) →
    ∃ t, step s = .next t ∧ t.ip = target ∧
      t.status = (if progLen s ≤ target.toNat then .halted else .ready)

/-- R215: the tick reports the status, and the fault record when it is Faulted; in Idle, Halted and Faulted it reports the
same again. -/
def Obligations.TickReportsFaultRecord : Prop :=
  (∀ s, (report s).status = s.status ∧ (s.status = .faulted → (report s).fault = some (s.fcause, s.finfo)) ∧
    (s.status ≠ .faulted → (report s).fault = none)) ∧
  (∀ s, s.status ≠ .ready → ∃ t, step s = .next t ∧ report t = report s)

/-! ### The encoder's text (outside the block; notes/assumptions/7.md) -/

/-- R92, R100, R101, R105, R110: a source text that is accepted gives at most one word a line, every word decodes without a
fault, and none is a storage opcode. -/
def Obligations.AssembledWordsDecode : Prop :=
  ∀ (o : Ordinals) (lines : List (List Char)) (ws : List Word), Ordinals.wf o → assemble o lines = .ok ws →
    ws.length ≤ lines.length ∧
    ∀ w, w ∈ ws → ∃ i, decode o w = .instr i ∧ i.opcode.isStorage = false
end

