-- ==== Sys2Proof/Laws/Decode.lean ====
section
/-! SUPPORT. The decoder and the encoder: cutting what was glued together, the opcode lookup under an injective `ORD`, and
the register check. -/

namespace Sys2Proof

/-! ### Cutting and gluing -/

theorem extract_append_high {a b : Nat} (x : BitVec a) (y : BitVec b) : (x ++ y).extractLsb' b a = x := by
  apply BitVec.eq_of_getLsbD_eq
  intro i hi
  simp [BitVec.getLsbD_append, hi]

theorem extract_append_low {a b : Nat} (x : BitVec a) (y : BitVec b) : (x ++ y).extractLsb' 0 b = y := by
  apply BitVec.eq_of_getLsbD_eq
  intro i hi
  simp [BitVec.getLsbD_append, hi]

/-- A word is its two fields (R80). -/
theorem word_eq_fields (w : Word) : opcField w ++ opndField w = w := by
  apply BitVec.eq_of_getLsbD_eq
  intro i hi
  simp only [opcField, opndField, BitVec.getLsbD_append, BitVec.getLsbD_extractLsb', Nat.zero_add]
  by_cases h : i < 58
  · simp [h]
  · simp [h, show i - 58 < 6 by omega, show 58 + (i - 58) = i by omega]

@[simp] theorem opcField_append (opc : BitVec 6) (f : OperandField) : opcField (opc ++ f) = opc :=
  extract_append_high opc f

@[simp] theorem opndField_append (opc : BitVec 6) (f : OperandField) : opndField (opc ++ f) = f :=
  extract_append_low opc f

@[simp] theorem field57to54_append (ra : BitVec 4) (low : BitVec 54) : field57to54 (ra ++ low) = ra :=
  extract_append_high ra low

@[simp] theorem field53to0_append (ra : BitVec 4) (low : BitVec 54) : field53to0 (ra ++ low) = low :=
  extract_append_low ra low

@[simp] theorem field57to39_append (ra rb : BitVec 19) (rc : BitVec 20) : field57to39 (ra ++ (rb ++ rc)) = ra :=
  extract_append_high ra (rb ++ rc)

theorem extract_append_middle {a b c : Nat} (x : BitVec a) (y : BitVec b) (z : BitVec c) :
    (x ++ (y ++ z)).extractLsb' c b = y := by
  apply BitVec.eq_of_getLsbD_eq
  intro i hi
  simp [BitVec.getLsbD_append, BitVec.getElem_append, hi, show c + i < b + c by omega]

theorem extract_append_last {a b c : Nat} (x : BitVec a) (y : BitVec b) (z : BitVec c) :
    (x ++ (y ++ z)).extractLsb' 0 c = z := by
  apply BitVec.eq_of_getLsbD_eq
  intro i hi
  simp [BitVec.getLsbD_append, BitVec.getElem_append, hi, show i < b + c by omega]

@[simp] theorem field38to20_append (ra rb : BitVec 19) (rc : BitVec 20) : field38to20 (ra ++ (rb ++ rc)) = rb :=
  extract_append_middle ra rb rc

@[simp] theorem field19to0_append (ra rb : BitVec 19) (rc : BitVec 20) : field19to0 (ra ++ (rb ++ rc)) = rc :=
  extract_append_last ra rb rc

theorem fields4x54_eq (f : OperandField) : field57to54 f ++ field53to0 f = f := by
  apply BitVec.eq_of_getLsbD_eq
  intro i hi
  simp only [field57to54, field53to0, BitVec.getLsbD_append, BitVec.getLsbD_extractLsb', Nat.zero_add]
  by_cases h : i < 54
  · simp [h]
  · simp [h, show i - 54 < 4 by omega, show 54 + (i - 54) = i by omega]

theorem fields19x19x20_eq (f : OperandField) : field57to39 f ++ (field38to20 f ++ field19to0 f) = f := by
  apply BitVec.eq_of_getLsbD_eq
  intro i hi
  simp only [field57to39, field38to20, field19to0, BitVec.getLsbD_append, BitVec.getLsbD_extractLsb', Nat.zero_add]
  by_cases h : i < 20
  · simp [h, show i < 39 by omega]
  · by_cases h' : i < 39
    · simp [h, h', show i - 20 < 19 by omega, show 20 + (i - 20) = i by omega]
    · simp [h', show i - 39 < 19 by omega, show 39 + (i - 39) = i by omega]

/-! ### The spec's shifts are the encoder's gluing -/

theorem word58_eq (opc : BitVec 6) (f : BitVec 58) : Machine.word58 opc f = opc ++ f := by
  apply BitVec.eq_of_getLsbD_eq
  intro i hi
  simp only [Machine.word58, BitVec.getLsbD_or, BitVec.getLsbD_shiftLeft, BitVec.getLsbD_setWidth,
    BitVec.getLsbD_append]
  by_cases h : i < 58
  · simp [h, hi]
  · have : f.getLsbD i = false := BitVec.getLsbD_of_ge f i (by omega)
    simp [h, hi, this, show i - 58 < 64 by omega]

theorem word4x54_eq (opc : BitVec 6) (ra : BitVec 4) (low : BitVec 54) :
    Machine.word4x54 opc ra low = opc ++ (ra ++ low) := by
  apply BitVec.eq_of_getLsbD_eq
  intro i hi
  simp only [Machine.word4x54, BitVec.getLsbD_or, BitVec.getLsbD_shiftLeft, BitVec.getLsbD_setWidth,
    BitVec.getLsbD_append]
  by_cases h : i < 54
  · simp [h, hi, show i < 58 by omega]
  · have h1 : low.getLsbD i = false := BitVec.getLsbD_of_ge low i (by omega)
    by_cases h' : i < 58
    · simp [h, h', hi, h1, show i - 54 < 64 by omega]
    · have h2 : ra.getLsbD (i - 54) = false := BitVec.getLsbD_of_ge ra _ (by omega)
      simp [h', hi, h1, h2, show i - 58 < 64 by omega]

theorem word19x19x20_eq (opc : BitVec 6) (ra rb : BitVec 19) (rc : BitVec 20) :
    Machine.word19x19x20 opc ra rb rc = opc ++ (ra ++ (rb ++ rc)) := by
  apply BitVec.eq_of_getLsbD_eq
  intro i hi
  simp only [Machine.word19x19x20, BitVec.getLsbD_or, BitVec.getLsbD_shiftLeft, BitVec.getLsbD_setWidth,
    BitVec.getLsbD_append]
  by_cases h : i < 20
  · simp [h, hi, show i < 39 by omega, show i < 58 by omega]
  · have h1 : rc.getLsbD i = false := BitVec.getLsbD_of_ge rc i (by omega)
    by_cases h' : i < 39
    · simp [h, h', hi, h1, show i < 58 by omega, show i - 20 < 64 by omega]
    · have h2 : rb.getLsbD (i - 20) = false := BitVec.getLsbD_of_ge rb _ (by omega)
      by_cases h'' : i < 58
      · simp [h', h'', hi, h1, h2, show i - 39 < 64 by omega]
      · have h3 : ra.getLsbD (i - 39) = false := BitVec.getLsbD_of_ge ra _ (by omega)
        simp [h'', hi, h1, h2, h3, show i - 58 < 64 by omega]

/-! ### Registers -/

theorem regOf?_eq_some {n : Nat} {f : BitVec n} {r : Reg} : regOf? f = some r ↔ f.toNat = r.val := by
  unfold regOf?
  split
  · rename_i h
    simp [Fin.ext_iff]
  · rename_i h
    have := r.isLt
    simp; omega

theorem regOf?_of_lt {n : Nat} {f : BitVec n} (h : f.toNat < 12) : regOf? f = some ⟨f.toNat, h⟩ := by
  simp [regOf?, h]

theorem regOf?_of_ge {n : Nat} {f : BitVec n} (h : 12 ≤ f.toNat) : regOf? f = none := by
  simp [regOf?, h]

/-- A register index written into a field wide enough reads back. -/
theorem regOf?_ofNat {n : Nat} (hn : 12 ≤ 2 ^ n) (r : Reg) : regOf? (BitVec.ofNat n r.val) = some r := by
  rw [regOf?_eq_some, BitVec.toNat_ofNat]
  exact Nat.mod_eq_of_lt (Nat.lt_of_lt_of_le r.isLt hn)

/-- A field that names a register holds exactly that index. -/
theorem ofNat_of_regOf? {n : Nat} {f : BitVec n} {r : Reg} (h : regOf? f = some r) : BitVec.ofNat n r.val = f := by
  rw [regOf?_eq_some] at h
  rw [← h]
  simp

theorem regOf?_isSome {n : Nat} (f : BitVec n) : (regOf? f).isSome = regFieldOk f := by
  unfold regOf? regFieldOk
  split <;> simp [*]

/-! ### The opcode lookup -/

theorem Opcode.mem_all (m : Opcode) : m ∈ Opcode.all := by cases m <;> decide

theorem Opcode.index_injective {m m' : Opcode} (h : m.index = m'.index) : m = m' := by
  revert h; cases m <;> cases m' <;> decide

/-- Under an injective `ORD` two opcodes never share an ordinal. -/
theorem ordinal_injective {o : Ordinals} (ho : Ordinals.wf o) {m m' : Opcode} (h : ordinal o m = ordinal o m') :
    m = m' := by
  apply Opcode.index_injective
  have hl : o.toList.length = 21 := by simp
  have hget : ∀ k : Fin 21, o.toList[k.val]'(by rw [hl]; exact k.isLt) = o[k] := by
    intro k; simp
  have := (List.Nodup.getElem_inj_iff ho (hi := by rw [hl]; exact m.index.isLt)
    (hj := by rw [hl]; exact m'.index.isLt)).mp (by rw [hget, hget]; exact h)
  exact Fin.ext this

theorem opcodeOf_eq_some {o : Ordinals} {opc : BitVec 6} {m : Opcode} (h : opcodeOf o opc = some m) :
    ordinal o m = opc := by
  have := List.find?_some h
  simpa using this

theorem opcodeOf_ordinal {o : Ordinals} (ho : Ordinals.wf o) (m : Opcode) : opcodeOf o (ordinal o m) = some m := by
  cases h : opcodeOf o (ordinal o m) with
  | none =>
    have := List.find?_eq_none.mp h m (Opcode.mem_all m)
    simp at this
  | some m' => rw [ordinal_injective ho (opcodeOf_eq_some h)]

theorem opcodeOf_eq_none {o : Ordinals} {opc : BitVec 6} : opcodeOf o opc = none ↔ ∀ m, ordinal o m ≠ opc := by
  unfold opcodeOf
  rw [List.find?_eq_none]
  constructor
  · intro h m hm; exact h m (Opcode.mem_all m) (by simp [hm])
  · intro h m _; simp [h m]

/-! ### The decoder, said once -/

/-- A word of a defined opcode decodes as its operand field does. -/
theorem decode_append {o : Ordinals} (ho : Ordinals.wf o) (m : Opcode) (f : OperandField) :
    decode o (ordinal o m ++ f) =
      match decodeOperands m f with
      | none => .fault (.illegalOperand (ordinal o m ++ f))
      | some i => .instr i := by
  cases h : decodeOperands m f <;> simp only [decode, opcField_append, opndField_append, opcodeOf_ordinal ho, h]

/-- When a word decodes, its opcode is the one with that ordinal and its operand field decodes. -/
theorem decode_instr {o : Ordinals} {w : Word} {i : Instr} (h : decode o w = .instr i) :
    ∃ m, ordinal o m = opcField w ∧ decodeOperands m (opndField w) = some i := by
  unfold decode at h
  split at h
  · cases h
  · rename_i m hm
    split at h
    · cases h
    · rename_i j hj
      cases h
      exact ⟨m, opcodeOf_eq_some hm, hj⟩

/-- What the operand fields of a decoded instruction were: its opcode's, and the fields the encoder writes. -/
theorem decodeOperands_some {m : Opcode} {f : OperandField} {i : Instr} (h : decodeOperands m f = some i) :
    i.opcode = m ∧ i.operands = f := by
  have rr : ∀ mk : Reg → Reg → Instr, decodeRR mk f = some i → ∃ a b, i = mk a b ∧ fieldsRR a b = f := by
    intro mk h
    unfold decodeRR at h
    split at h
    · rename_i a b ha hb
      cases h
      exact ⟨a, b, rfl, by rw [fieldsRR, ofNat_of_regOf? ha, ofNat_of_regOf? hb, fields4x54_eq]⟩
    · cases h
  have ri : ∀ mk : Reg → Imm54 → Instr, decodeRI mk f = some i → ∃ a b, i = mk a b ∧ fieldsRI a b = f := by
    intro mk h
    unfold decodeRI at h
    split at h
    · rename_i a ha
      cases h
      exact ⟨a, _, rfl, by rw [fieldsRI, ofNat_of_regOf? ha, fields4x54_eq]⟩
    · cases h
  have r : ∀ mk : Reg → Instr, decodeR mk f = some i → ∃ a, i = mk a ∧ fieldsR a = f := by
    intro mk h
    unfold decodeR at h
    split at h
    · rename_i a ha
      cases h
      exact ⟨a, rfl, ofNat_of_regOf? ha⟩
    · cases h
  have rrr : ∀ mk : Reg → Reg → Reg → Instr, decodeRRR mk f = some i →
      ∃ a b c, i = mk a b c ∧ fieldsRRR a b c = f := by
    intro mk h
    unfold decodeRRR at h
    split at h
    · rename_i a b c ha hb hc
      cases h
      exact ⟨a, b, c, rfl, by
        rw [fieldsRRR, ofNat_of_regOf? ha, ofNat_of_regOf? hb, ofNat_of_regOf? hc, fields19x19x20_eq]⟩
    · cases h
  have n : ∀ j : Instr, decodeN j f = some i → i = j ∧ 0 = f := by
    intro j h
    unfold decodeN at h
    split at h
    · rename_i hf; cases h; exact ⟨rfl, hf.symm⟩
    · cases h
  have x : ∀ j : Instr, some j = some i → i = j := by
    intro j h; cases h; rfl
  cases m with
  | movr | ldr | str | eq | and | lt =>
    obtain ⟨a, b, rfl, hf⟩ := rr _ h; exact ⟨rfl, hf⟩
  | movi | ldi | sti =>
    obtain ⟨a, b, rfl, hf⟩ := ri _ h; exact ⟨rfl, hf⟩
  | jmpr | not =>
    obtain ⟨a, rfl, hf⟩ := r _ h; exact ⟨rfl, hf⟩
  | addr | subr | mulr | divr =>
    obtain ⟨a, b, c, rfl, hf⟩ := rrr _ h; exact ⟨rfl, hf⟩
  | jmpi | sld | sst | spub | ssub => obtain rfl := x _ h; exact ⟨rfl, rfl⟩
  | halt => obtain ⟨rfl, hf⟩ := n _ h; exact ⟨rfl, hf⟩

/-- The operand field decodes exactly when the check of R95 passes. -/
theorem decodeOperands_isSome (m : Opcode) (f : OperandField) :
    (decodeOperands m f).isSome = RawInstr.wellFormed ⟨m, f⟩ := by
  have rr : ∀ mk : Reg → Reg → Instr,
      (decodeRR mk f).isSome = (regFieldOk (field57to54 f) && regFieldOk (field53to0 f)) := by
    intro mk
    rw [← regOf?_isSome, ← regOf?_isSome]
    unfold decodeRR
    cases regOf? (field57to54 f) <;> cases regOf? (field53to0 f) <;> rfl
  have ri : ∀ mk : Reg → Imm54 → Instr, (decodeRI mk f).isSome = regFieldOk (field57to54 f) := by
    intro mk
    rw [← regOf?_isSome]
    unfold decodeRI
    cases regOf? (field57to54 f) <;> rfl
  have r : ∀ mk : Reg → Instr, (decodeR mk f).isSome = regFieldOk f := by
    intro mk
    rw [← regOf?_isSome]
    unfold decodeR
    cases regOf? f <;> rfl
  have rrr : ∀ mk : Reg → Reg → Reg → Instr, (decodeRRR mk f).isSome =
      (regFieldOk (field57to39 f) && regFieldOk (field38to20 f) && regFieldOk (field19to0 f)) := by
    intro mk
    rw [← regOf?_isSome, ← regOf?_isSome, ← regOf?_isSome]
    unfold decodeRRR
    cases regOf? (field57to39 f) <;> cases regOf? (field38to20 f) <;> cases regOf? (field19to0 f) <;> rfl
  cases m with
  | movr | ldr | str | eq | and | lt => exact rr _
  | movi | ldi | sti => exact ri _
  | jmpr | not => exact r _
  | addr | subr | mulr | divr => exact rrr _
  | jmpi | sld | sst | spub | ssub => rfl
  | halt =>
    show (if f = 0 then some Instr.halt else none).isSome = decide (f = 0)
    by_cases hf : f = 0
    · simp [hf]
    · rw [if_neg hf, decide_eq_false hf]; rfl

end Sys2Proof
end

