-- ==== Sys2Proof/Laws/Memory.lean ====
section
/-! SUPPORT. The memory: what one byte reads after a write, that every operation keeps the canonical form and the
capacity, and what an 8-byte access reads and writes byte by byte. -/

namespace Sys2Proof.Machine.Memory

/-! ### One byte -/

@[simp] theorem readByte_nil (a : Nat) : readByte [] a = unlisted := rfl

theorem readByte_cons (a' : Nat) (b : Byte) (m : Memory) (a : Nat) :
    readByte ((a', b) :: m) a = if a = a' then b else readByte m a := rfl

/-- An address that no cell lists reads as an unlisted one. -/
theorem readByte_of_not_listed {m : Memory} {a : Nat} (h : ∀ c ∈ m, c.1 ≠ a) : readByte m a = unlisted := by
  induction m with
  | nil => rfl
  | cons c m ih =>
    obtain ⟨a', b⟩ := c
    have hne : a ≠ a' := fun he => h (a', b) (by simp) he.symm
    rw [readByte_cons, if_neg hne]
    exact ih fun c hc => h c (by simp [hc])

theorem readByte_putCell (a : Nat) (b : Byte) (rest : Memory) (x : Nat) (h : ∀ c ∈ rest, a < c.1) :
    readByte (putCell a b rest) x = if x = a then b else readByte rest x := by
  unfold putCell
  split
  · rename_i hb
    split
    · rename_i hx
      rw [hb, hx]
      exact readByte_of_not_listed fun c hc => Nat.ne_of_gt (h c hc)
    · rfl
  · rfl

/-- What `writeByte` does to what is listed. -/
theorem mem_writeByte {m : Memory} {a : Nat} {b : Byte} {c : Host.Cell} (h : c ∈ writeByte m a b) :
    c = (a, b) ∧ b ≠ unlisted ∨ c ∈ m := by
  have put : ∀ rest : Memory, c ∈ putCell a b rest → c = (a, b) ∧ b ≠ unlisted ∨ c ∈ rest := by
    intro rest hc
    unfold putCell at hc
    split at hc
    · exact .inr hc
    · rename_i hb
      rcases List.mem_cons.mp hc with rfl | hc
      · exact .inl ⟨rfl, hb⟩
      · exact .inr hc
  induction m with
  | nil => exact put [] h
  | cons d m ih =>
    obtain ⟨a', b'⟩ := d
    unfold writeByte at h
    split at h
    · exact put _ h
    · split at h
      · exact (put _ h).imp_right fun hc => by simp [hc]
      · rcases List.mem_cons.mp h with rfl | hc
        · exact .inr (by simp)
        · exact (ih hc).imp_right fun hc => by simp [hc]

/-- A byte read after a write of one byte. -/
theorem readByte_writeByte {m : Memory} (hm : m.wf) (a : Nat) (b : Byte) (x : Nat) :
    readByte (writeByte m a b) x = if x = a then b else readByte m x := by
  induction m with
  | nil => exact readByte_putCell a b [] x (by simp)
  | cons d m ih =>
    obtain ⟨a', b'⟩ := d
    have hd : ∀ c ∈ m, a' < c.1 := (List.pairwise_cons.mp hm.1).1
    have hwf : Memory.wf m := ⟨(List.pairwise_cons.mp hm.1).2, fun c hc => hm.2 c (by simp [hc])⟩
    unfold writeByte
    split
    · rename_i hlt
      refine readByte_putCell a b _ x fun c hc => ?_
      rcases List.mem_cons.mp hc with rfl | hc
      · exact hlt
      · exact Nat.lt_trans hlt (hd c hc)
    · split
      · rename_i heq
        rw [readByte_putCell a b m x (fun c hc => heq ▸ hd c hc), readByte_cons, heq]
        split <;> rfl
      · rename_i hne
        rw [readByte_cons, readByte_cons, ih hwf]
        by_cases hx : x = a'
        · have : x ≠ a := fun h => hne (h.symm.trans hx)
          simp [hx, Ne.symm hne]
        · simp [hx]

/-- A write keeps the canonical form. -/
theorem wf_writeByte {m : Memory} (hm : m.wf) (a : Nat) (b : Byte) : (writeByte m a b).wf := by
  refine ⟨?_, fun c hc => ?_⟩
  · have put : ∀ rest : Memory, rest.Pairwise (fun c d => c.1 < d.1) → (∀ c ∈ rest, a < c.1) →
        (putCell a b rest).Pairwise (fun c d => c.1 < d.1) := by
      intro rest hr hlt
      unfold putCell
      split
      · exact hr
      · exact List.pairwise_cons.mpr ⟨hlt, hr⟩
    induction m with
    | nil => exact put [] List.Pairwise.nil (by simp)
    | cons d m ih =>
      obtain ⟨a', b'⟩ := d
      have hd : ∀ c ∈ m, a' < c.1 := (List.pairwise_cons.mp hm.1).1
      have ht := (List.pairwise_cons.mp hm.1).2
      unfold writeByte
      split
      · rename_i hlt
        refine put _ hm.1 fun c hc => ?_
        rcases List.mem_cons.mp hc with rfl | hc
        · exact hlt
        · exact Nat.lt_trans hlt (hd c hc)
      · split
        · rename_i heq
          exact put _ ht fun c hc => heq ▸ hd c hc
        · rename_i hnlt hne
          refine List.pairwise_cons.mpr ⟨fun c hc => ?_, ih ⟨ht, fun c hc => hm.2 c (by simp [hc])⟩⟩
          rcases mem_writeByte hc with ⟨rfl, -⟩ | hc
          · exact Nat.lt_of_le_of_ne (Nat.le_of_not_lt hnlt) (Ne.symm hne)
          · exact hd c hc
  · rcases mem_writeByte hc with ⟨rfl, hb⟩ | hc
    · exact hb
    · exact hm.2 c hc

theorem within_writeByte {n : Nat} {m : Memory} (hm : m.within n) {a : Nat} (ha : a < n) (b : Byte) :
    (writeByte m a b).within n := by
  intro c hc
  rcases mem_writeByte hc with ⟨rfl, -⟩ | hc
  · exact ha
  · exact hm c hc

/-! ### Runs of bytes -/

theorem length_readBytes (m : Memory) (a n : Nat) : (readBytes m a n).length = n := by
  induction n generalizing a with
  | zero => rfl
  | succ n ih => simp [readBytes, ih]

theorem getElem?_readBytes (m : Memory) (a n k : Nat) (hk : k < n) :
    (readBytes m a n)[k]? = some (m.readByte (a + k)) := by
  induction n generalizing a k with
  | zero => omega
  | succ n ih =>
    cases k with
    | zero => simp [readBytes]
    | succ k =>
      rw [readBytes, List.getElem?_cons_succ, ih (a + 1) k (by omega)]
      congr 2; omega

theorem wf_writeBytes {m : Memory} (hm : m.wf) (a : Nat) (bs : List Byte) : (writeBytes m a bs).wf := by
  induction bs generalizing m a with
  | nil => exact hm
  | cons b bs ih => exact ih (wf_writeByte hm a b) (a + 1)

theorem within_writeBytes {n : Nat} {m : Memory} (hm : m.within n) {a : Nat} {bs : List Byte}
    (ha : a + bs.length ≤ n) : (writeBytes m a bs).within n := by
  induction bs generalizing m a with
  | nil => exact hm
  | cons b bs ih =>
    simp only [List.length_cons] at ha
    exact ih (within_writeByte hm (by omega) b) (by omega)

/-- A byte read after a write of several bytes. -/
theorem readByte_writeBytes {m : Memory} (hm : m.wf) (a : Nat) (bs : List Byte) (x : Nat) :
    readByte (writeBytes m a bs) x = if a ≤ x then (bs[x - a]?).getD (readByte m x) else readByte m x := by
  induction bs generalizing m a with
  | nil => simp [writeBytes]
  | cons b bs ih =>
    rw [writeBytes, ih (wf_writeByte hm a b) (a + 1), readByte_writeByte hm]
    by_cases h1 : a + 1 ≤ x
    · have hx : x - a = (x - (a + 1)) + 1 := by omega
      simp [h1, show a ≤ x by omega, show x ≠ a by omega, hx]
    · by_cases h2 : x = a
      · subst h2; simp
      · simp [h1, h2, show ¬ a ≤ x by omega]

/-- The canonical memory a list of cells writes. -/
theorem wf_ofCells (size : Nat) (m : List Host.Cell) : (ofCells size m).wf := by
  induction m with
  | nil => exact ⟨List.Pairwise.nil, by simp [ofCells]⟩
  | cons c m ih =>
    obtain ⟨a, b⟩ := c
    unfold ofCells
    split
    · exact wf_writeByte ih a b
    · exact ih

theorem within_ofCells (size : Nat) (m : List Host.Cell) : (ofCells size m).within size := by
  induction m with
  | nil => simp [ofCells]
  | cons c m ih =>
    obtain ⟨a, b⟩ := c
    unfold ofCells
    split
    · rename_i ha; exact within_writeByte ih ha b
    · exact ih

/-- Below the capacity the memory `ofCells` makes reads as the list of cells does. -/
theorem readByte_ofCells {size : Nat} (m : List Host.Cell) {x : Nat} (hx : x < size) :
    readByte (ofCells size m) x = readByte m x := by
  induction m with
  | nil => rfl
  | cons c m ih =>
    obtain ⟨a, b⟩ := c
    rw [readByte_cons]
    unfold ofCells
    split
    · rw [readByte_writeByte (wf_ofCells size m), ih]
    · rename_i ha
      rw [ih, if_neg (by omega)]

/-! ### Words -/

theorem length_bytesLE (n v : Nat) : (bytesLE n v).length = n := by
  induction n generalizing v with
  | zero => rfl
  | succ n ih => simp [bytesLE, ih]

/-- Byte `k` of the little-endian bytes of `v` is `(v >> (8*k)) mod 256` (R53). -/
theorem getElem?_bytesLE (n v k : Nat) (hk : k < n) :
    (bytesLE n v)[k]? = some (BitVec.ofNat 8 ((v >>> (8 * k)) % 256)) := by
  have h256 : ∀ y : Nat, BitVec.ofNat 8 (y % 256) = BitVec.ofNat 8 y := by
    intro y; apply BitVec.eq_of_toNat_eq; simp
  induction n generalizing v k with
  | zero => omega
  | succ n ih =>
    cases k with
    | zero => simp [bytesLE, h256]
    | succ k =>
      rw [bytesLE, List.getElem?_cons_succ, ih (v / 256) k (by omega), h256, h256]
      congr 2
      rw [Nat.shiftRight_eq_div_pow, Nat.shiftRight_eq_div_pow, Nat.div_div_eq_div_mul,
        show 8 * (k + 1) = 8 + 8 * k by omega, Nat.pow_add]

theorem natOfLE_bytesLE (n v : Nat) : natOfLE (bytesLE n v) = v % 256 ^ n := by
  induction n generalizing v with
  | zero => simp [bytesLE, natOfLE, Nat.mod_one]
  | succ n ih =>
    rw [bytesLE, natOfLE, ih, Nat.pow_succ, Nat.mul_comm (256 ^ n) 256, Nat.mod_mul]
    simp

theorem length_bytesOfWord (o : ByteOrder) (v : Word) : (bytesOfWord o v).length = 8 := by
  cases o <;> simp [bytesOfWord, length_bytesLE]

/-- The bytes of a word, in rising address order (R53). -/
theorem getElem?_bytesOfWord (o : ByteOrder) (v : Word) (k : Nat) (hk : k < 8) :
    (bytesOfWord o v)[k]? = some (byteOf o v k) := by
  cases o with
  | little => exact getElem?_bytesLE 8 v.toNat k hk
  | big =>
    rw [bytesOfWord, List.getElem?_reverse (by rw [length_bytesLE]; exact hk), length_bytesLE]
    exact getElem?_bytesLE 8 v.toNat (8 - 1 - k) (by omega)

/-- A word is what its bytes spell. -/
theorem wordOfBytes_bytesOfWord (o : ByteOrder) (v : Word) : wordOfBytes o (bytesOfWord o v) = v := by
  have h : BitVec.ofNat 64 (natOfLE (bytesLE 8 v.toNat)) = v := by
    rw [natOfLE_bytesLE]
    apply BitVec.eq_of_toNat_eq
    simp [Nat.mod_eq_of_lt v.isLt]
  cases o with
  | little => exact h
  | big => simpa [wordOfBytes, bytesOfWord] using h

theorem natOfLE_lt (bs : List Byte) : natOfLE bs < 256 ^ bs.length := by
  induction bs with
  | nil => simp [natOfLE]
  | cons b bs ih =>
    have hb := b.isLt
    rw [natOfLE, List.length_cons, Nat.pow_succ]
    omega

/-- The spelled value of a run of bytes, least significant first, is the sum of `bs[k] * 2^(8*k)`. -/
theorem natOfLE_eq_sum (bs : List Byte) (f : Nat → Nat) (h : ∀ k, k < bs.length → (bs[k]?.getD 0).toNat = f k) :
    natOfLE bs = ∑ k ∈ Finset.range bs.length, f k * 2 ^ (8 * k) := by
  induction bs generalizing f with
  | nil => rfl
  | cons b bs ih =>
    have h0 : b.toNat = f 0 := by simpa using h 0 (by simp)
    have ht := ih (fun k => f (k + 1)) fun k hk => by simpa using h (k + 1) (by simpa using hk)
    rw [natOfLE, ht, List.length_cons, Finset.sum_range_succ', h0, Finset.mul_sum, Nat.mul_zero, Nat.pow_zero,
      Nat.mul_one, Nat.add_comm]
    congr 1
    refine Finset.sum_congr rfl fun k _ => ?_
    rw [show 8 * (k + 1) = 8 * k + 8 by omega, Nat.pow_add]
    ring

/-- The value an 8-byte read delivers (R56). -/
theorem readWord_toNat (o : ByteOrder) (m : Memory) (a : Nat) : (readWord o m a).toNat = valueAt o m a := by
  have key : ∀ bs : List Byte, bs.length = 8 → (BitVec.ofNat 64 (natOfLE bs)).toNat = natOfLE bs := by
    intro bs hbs
    have := natOfLE_lt bs
    rw [hbs] at this
    simp only [BitVec.toNat_ofNat]
    exact Nat.mod_eq_of_lt (by simpa using this)
  have hl := length_readBytes m a 8
  cases o with
  | little =>
    have h := natOfLE_eq_sum (readBytes m a 8) (fun k => (m.readByte (a + k)).toNat) fun k hk => by
      rw [getElem?_readBytes m a 8 k (hl ▸ hk)]; rfl
    rw [readWord, wordOfBytes, key _ hl, h, hl]
    rfl
  | big =>
    have hr : (readBytes m a 8).reverse.length = 8 := by rw [List.length_reverse, hl]
    have h := natOfLE_eq_sum (readBytes m a 8).reverse (fun k => (m.readByte (a + (8 - 1 - k))).toNat) fun k hk => by
      rw [List.getElem?_reverse (by omega), hl, getElem?_readBytes m a 8 (8 - 1 - k) (by omega)]; rfl
    rw [readWord, wordOfBytes, key _ hr, h, hr, valueAt, ← Finset.sum_range_reflect]
    refine Finset.sum_congr rfl fun k hk => ?_
    have hk := Finset.mem_range.mp hk
    rw [show 8 - 1 - (8 - 1 - k) = k by omega]
    rfl

theorem wf_writeWord (o : ByteOrder) {m : Memory} (hm : m.wf) (a : Nat) (v : Word) : (writeWord o m a v).wf :=
  wf_writeBytes hm a _

theorem within_writeWord (o : ByteOrder) {n : Nat} {m : Memory} (hm : m.within n) {a : Nat} (ha : a + 8 ≤ n)
    (v : Word) : (writeWord o m a v).within n :=
  within_writeBytes hm (by rw [length_bytesOfWord]; exact ha)

/-- The 8 bytes an 8-byte write leaves (R57). -/
theorem readByte_writeWord_inside (o : ByteOrder) {m : Memory} (hm : m.wf) (a : Nat) (v : Word) (k : Nat)
    (hk : k < 8) : readByte (writeWord o m a v) (a + k) = byteOf o v k := by
  rw [writeWord, readByte_writeBytes hm, if_pos (by omega), Nat.add_sub_cancel_left,
    getElem?_bytesOfWord o v k hk]
  rfl

/-- Every other byte keeps its value (R57). -/
theorem readByte_writeWord_outside (o : ByteOrder) {m : Memory} (hm : m.wf) (a : Nat) (v : Word) (x : Nat)
    (hx : x < a ∨ a + 8 ≤ x) : readByte (writeWord o m a v) x = readByte m x := by
  rw [writeWord, readByte_writeBytes hm]
  split
  · rw [List.getElem?_eq_none (by rw [length_bytesOfWord]; omega)]
    rfl
  · rfl

/-- The bytes read back are the bytes written. -/
theorem readBytes_eq_of {m : Memory} {a : Nat} {bs : List Byte}
    (h : ∀ k, k < bs.length → bs[k]? = some (m.readByte (a + k))) : readBytes m a bs.length = bs := by
  apply List.ext_getElem?
  intro k
  by_cases hk : k < bs.length
  · rw [getElem?_readBytes m a _ k hk, h k hk]
  · rw [List.getElem?_eq_none (by rw [length_readBytes]; omega), List.getElem?_eq_none (by omega)]

/-- A word read after a write of the same place. -/
theorem readWord_writeWord (o : ByteOrder) {m : Memory} (hm : m.wf) (a : Nat) (v : Word) :
    readWord o (writeWord o m a v) a = v := by
  have h := readBytes_eq_of (m := writeWord o m a v) (a := a) (bs := bytesOfWord o v) fun k hk => by
    rw [length_bytesOfWord] at hk
    rw [readByte_writeWord_inside o hm a v k hk, getElem?_bytesOfWord o v k hk]
  rw [length_bytesOfWord] at h
  rw [readWord, h, wordOfBytes_bytesOfWord]

end Sys2Proof.Machine.Memory
end

