-- ==== Sys2Proof/Laws/State.lean ====
section
/-! SUPPORT. One lemma per field per update of the state, true by unfolding, so that no later proof unfolds a record
update. -/

namespace Sys2Proof.Machine

/-! ### `writeReg` -/

@[simp] theorem writeReg_regs (r : Reg) (v : Word) (s : State) : (writeReg r v s).regs = s.regs.set r v := rfl
@[simp] theorem writeReg_ip (r : Reg) (v : Word) (s : State) : (writeReg r v s).ip = s.ip := rfl
@[simp] theorem writeReg_flags (r : Reg) (v : Word) (s : State) : (writeReg r v s).flags = s.flags := rfl
@[simp] theorem writeReg_status (r : Reg) (v : Word) (s : State) : (writeReg r v s).status = s.status := rfl
@[simp] theorem writeReg_fcause (r : Reg) (v : Word) (s : State) : (writeReg r v s).fcause = s.fcause := rfl
@[simp] theorem writeReg_finfo (r : Reg) (v : Word) (s : State) : (writeReg r v s).finfo = s.finfo := rfl
@[simp] theorem writeReg_prog (r : Reg) (v : Word) (s : State) : (writeReg r v s).prog = s.prog := rfl
@[simp] theorem writeReg_mem (r : Reg) (v : Word) (s : State) : (writeReg r v s).mem = s.mem := rfl
@[simp] theorem writeReg_cfg (r : Reg) (v : Word) (s : State) : (writeReg r v s).cfg = s.cfg := rfl
@[simp] theorem writeReg_replies (r : Reg) (v : Word) (s : State) : (writeReg r v s).replies = s.replies := rfl
@[simp] theorem writeReg_requests (r : Reg) (v : Word) (s : State) : (writeReg r v s).requests = s.requests := rfl

/-! ### `setFlags` -/

@[simp] theorem setFlags_regs (v : Word) (s : State) : (setFlags v s).regs = s.regs := rfl
@[simp] theorem setFlags_ip (v : Word) (s : State) : (setFlags v s).ip = s.ip := rfl
@[simp] theorem setFlags_flags (v : Word) (s : State) : (setFlags v s).flags = v := rfl
@[simp] theorem setFlags_status (v : Word) (s : State) : (setFlags v s).status = s.status := rfl
@[simp] theorem setFlags_fcause (v : Word) (s : State) : (setFlags v s).fcause = s.fcause := rfl
@[simp] theorem setFlags_finfo (v : Word) (s : State) : (setFlags v s).finfo = s.finfo := rfl
@[simp] theorem setFlags_prog (v : Word) (s : State) : (setFlags v s).prog = s.prog := rfl
@[simp] theorem setFlags_mem (v : Word) (s : State) : (setFlags v s).mem = s.mem := rfl
@[simp] theorem setFlags_cfg (v : Word) (s : State) : (setFlags v s).cfg = s.cfg := rfl
@[simp] theorem setFlags_replies (v : Word) (s : State) : (setFlags v s).replies = s.replies := rfl
@[simp] theorem setFlags_requests (v : Word) (s : State) : (setFlags v s).requests = s.requests := rfl
@[simp] theorem readReg_setFlags (v : Word) (s : State) (i : Reg) : readReg (setFlags v s) i = readReg s i := rfl

/-! ### `setIp` -/

@[simp] theorem setIp_regs (v : Word) (s : State) : (setIp v s).regs = s.regs := rfl
@[simp] theorem setIp_ip (v : Word) (s : State) : (setIp v s).ip = v := rfl
@[simp] theorem setIp_flags (v : Word) (s : State) : (setIp v s).flags = s.flags := rfl
@[simp] theorem setIp_status (v : Word) (s : State) : (setIp v s).status = s.status := rfl
@[simp] theorem setIp_fcause (v : Word) (s : State) : (setIp v s).fcause = s.fcause := rfl
@[simp] theorem setIp_finfo (v : Word) (s : State) : (setIp v s).finfo = s.finfo := rfl
@[simp] theorem setIp_prog (v : Word) (s : State) : (setIp v s).prog = s.prog := rfl
@[simp] theorem setIp_mem (v : Word) (s : State) : (setIp v s).mem = s.mem := rfl
@[simp] theorem setIp_cfg (v : Word) (s : State) : (setIp v s).cfg = s.cfg := rfl
@[simp] theorem setIp_replies (v : Word) (s : State) : (setIp v s).replies = s.replies := rfl
@[simp] theorem setIp_requests (v : Word) (s : State) : (setIp v s).requests = s.requests := rfl
@[simp] theorem readReg_setIp (v : Word) (s : State) (i : Reg) : readReg (setIp v s) i = readReg s i := rfl

/-! ### `advance` -/

@[simp] theorem advance_regs (s : State) : (advance s).regs = s.regs := rfl
@[simp] theorem advance_ip (s : State) : (advance s).ip = s.ip + 1 := rfl
@[simp] theorem advance_flags (s : State) : (advance s).flags = s.flags := rfl
@[simp] theorem advance_status (s : State) : (advance s).status = s.status := rfl
@[simp] theorem advance_fcause (s : State) : (advance s).fcause = s.fcause := rfl
@[simp] theorem advance_finfo (s : State) : (advance s).finfo = s.finfo := rfl
@[simp] theorem advance_prog (s : State) : (advance s).prog = s.prog := rfl
@[simp] theorem advance_mem (s : State) : (advance s).mem = s.mem := rfl
@[simp] theorem advance_cfg (s : State) : (advance s).cfg = s.cfg := rfl
@[simp] theorem advance_replies (s : State) : (advance s).replies = s.replies := rfl
@[simp] theorem advance_requests (s : State) : (advance s).requests = s.requests := rfl
@[simp] theorem readReg_advance (s : State) (i : Reg) : readReg (advance s) i = readReg s i := rfl

/-! ### `setStatus` -/

@[simp] theorem setStatus_regs (v : Status) (s : State) : (setStatus v s).regs = s.regs := rfl
@[simp] theorem setStatus_ip (v : Status) (s : State) : (setStatus v s).ip = s.ip := rfl
@[simp] theorem setStatus_flags (v : Status) (s : State) : (setStatus v s).flags = s.flags := rfl
@[simp] theorem setStatus_status (v : Status) (s : State) : (setStatus v s).status = v := rfl
@[simp] theorem setStatus_fcause (v : Status) (s : State) : (setStatus v s).fcause = s.fcause := rfl
@[simp] theorem setStatus_finfo (v : Status) (s : State) : (setStatus v s).finfo = s.finfo := rfl
@[simp] theorem setStatus_prog (v : Status) (s : State) : (setStatus v s).prog = s.prog := rfl
@[simp] theorem setStatus_mem (v : Status) (s : State) : (setStatus v s).mem = s.mem := rfl
@[simp] theorem setStatus_cfg (v : Status) (s : State) : (setStatus v s).cfg = s.cfg := rfl
@[simp] theorem setStatus_replies (v : Status) (s : State) : (setStatus v s).replies = s.replies := rfl
@[simp] theorem setStatus_requests (v : Status) (s : State) : (setStatus v s).requests = s.requests := rfl
@[simp] theorem readReg_setStatus (v : Status) (s : State) (i : Reg) : readReg (setStatus v s) i = readReg s i := rfl

/-! ### `setMem` -/

@[simp] theorem setMem_regs (m : Memory) (s : State) : (setMem m s).regs = s.regs := rfl
@[simp] theorem setMem_ip (m : Memory) (s : State) : (setMem m s).ip = s.ip := rfl
@[simp] theorem setMem_flags (m : Memory) (s : State) : (setMem m s).flags = s.flags := rfl
@[simp] theorem setMem_status (m : Memory) (s : State) : (setMem m s).status = s.status := rfl
@[simp] theorem setMem_fcause (m : Memory) (s : State) : (setMem m s).fcause = s.fcause := rfl
@[simp] theorem setMem_finfo (m : Memory) (s : State) : (setMem m s).finfo = s.finfo := rfl
@[simp] theorem setMem_prog (m : Memory) (s : State) : (setMem m s).prog = s.prog := rfl
@[simp] theorem setMem_mem (m : Memory) (s : State) : (setMem m s).mem = m := rfl
@[simp] theorem setMem_cfg (m : Memory) (s : State) : (setMem m s).cfg = s.cfg := rfl
@[simp] theorem setMem_replies (m : Memory) (s : State) : (setMem m s).replies = s.replies := rfl
@[simp] theorem setMem_requests (m : Memory) (s : State) : (setMem m s).requests = s.requests := rfl
@[simp] theorem readReg_setMem (m : Memory) (s : State) (i : Reg) : readReg (setMem m s) i = readReg s i := rfl

/-! ### `raise` -/

@[simp] theorem raise_regs (c : FaultCause) (info : Word) (s : State) : (raise c info s).regs = s.regs := rfl
@[simp] theorem raise_ip (c : FaultCause) (info : Word) (s : State) : (raise c info s).ip = s.ip := rfl
@[simp] theorem raise_flags (c : FaultCause) (info : Word) (s : State) : (raise c info s).flags = s.flags := rfl
@[simp] theorem raise_status (c : FaultCause) (info : Word) (s : State) : (raise c info s).status = .faulted := rfl
@[simp] theorem raise_fcause (c : FaultCause) (info : Word) (s : State) : (raise c info s).fcause = c.code := rfl
@[simp] theorem raise_finfo (c : FaultCause) (info : Word) (s : State) : (raise c info s).finfo = info := rfl
@[simp] theorem raise_prog (c : FaultCause) (info : Word) (s : State) : (raise c info s).prog = s.prog := rfl
@[simp] theorem raise_mem (c : FaultCause) (info : Word) (s : State) : (raise c info s).mem = s.mem := rfl
@[simp] theorem raise_cfg (c : FaultCause) (info : Word) (s : State) : (raise c info s).cfg = s.cfg := rfl
@[simp] theorem raise_replies (c : FaultCause) (info : Word) (s : State) : (raise c info s).replies = s.replies := rfl
@[simp] theorem raise_requests (c : FaultCause) (info : Word) (s : State) : (raise c info s).requests = s.requests := rfl
@[simp] theorem readReg_raise (c : FaultCause) (info : Word) (s : State) (i : Reg) : readReg (raise c info s) i = readReg s i := rfl

/-! ### `presentRequest` -/

@[simp] theorem presentRequest_regs (q : StorageRequest) (s : State) : (presentRequest q s).regs = s.regs := rfl
@[simp] theorem presentRequest_ip (q : StorageRequest) (s : State) : (presentRequest q s).ip = s.ip := rfl
@[simp] theorem presentRequest_flags (q : StorageRequest) (s : State) : (presentRequest q s).flags = s.flags := rfl
@[simp] theorem presentRequest_status (q : StorageRequest) (s : State) : (presentRequest q s).status = s.status := rfl
@[simp] theorem presentRequest_fcause (q : StorageRequest) (s : State) : (presentRequest q s).fcause = s.fcause := rfl
@[simp] theorem presentRequest_finfo (q : StorageRequest) (s : State) : (presentRequest q s).finfo = s.finfo := rfl
@[simp] theorem presentRequest_prog (q : StorageRequest) (s : State) : (presentRequest q s).prog = s.prog := rfl
@[simp] theorem presentRequest_mem (q : StorageRequest) (s : State) : (presentRequest q s).mem = s.mem := rfl
@[simp] theorem presentRequest_cfg (q : StorageRequest) (s : State) : (presentRequest q s).cfg = s.cfg := rfl
@[simp] theorem presentRequest_replies (q : StorageRequest) (s : State) : (presentRequest q s).replies = s.replies.tail := rfl
@[simp] theorem presentRequest_requests (q : StorageRequest) (s : State) : (presentRequest q s).requests = q :: s.requests := rfl
@[simp] theorem readReg_presentRequest (q : StorageRequest) (s : State) (i : Reg) : readReg (presentRequest q s) i = readReg s i := rfl

/-! ### `commitOk` -/

@[simp] theorem commitOk_regs (x : Vector Word 12) (f : Word) (m : List Host.Cell) (s : State) : (commitOk x f m s).regs = x := rfl
@[simp] theorem commitOk_ip (x : Vector Word 12) (f : Word) (m : List Host.Cell) (s : State) : (commitOk x f m s).ip = s.ip + 1 := rfl
@[simp] theorem commitOk_flags (x : Vector Word 12) (f : Word) (m : List Host.Cell) (s : State) : (commitOk x f m s).flags = f := rfl
@[simp] theorem commitOk_status (x : Vector Word 12) (f : Word) (m : List Host.Cell) (s : State) : (commitOk x f m s).status = s.status := rfl
@[simp] theorem commitOk_fcause (x : Vector Word 12) (f : Word) (m : List Host.Cell) (s : State) : (commitOk x f m s).fcause = s.fcause := rfl
@[simp] theorem commitOk_finfo (x : Vector Word 12) (f : Word) (m : List Host.Cell) (s : State) : (commitOk x f m s).finfo = s.finfo := rfl
@[simp] theorem commitOk_prog (x : Vector Word 12) (f : Word) (m : List Host.Cell) (s : State) : (commitOk x f m s).prog = s.prog := rfl
@[simp] theorem commitOk_mem (x : Vector Word 12) (f : Word) (m : List Host.Cell) (s : State) : (commitOk x f m s).mem = Memory.ofCells s.cfg.memSize m := rfl
@[simp] theorem commitOk_cfg (x : Vector Word 12) (f : Word) (m : List Host.Cell) (s : State) : (commitOk x f m s).cfg = s.cfg := rfl
@[simp] theorem commitOk_replies (x : Vector Word 12) (f : Word) (m : List Host.Cell) (s : State) : (commitOk x f m s).replies = s.replies := rfl
@[simp] theorem commitOk_requests (x : Vector Word 12) (f : Word) (m : List Host.Cell) (s : State) : (commitOk x f m s).requests = s.requests := rfl

/-! ### `load` -/

@[simp] theorem load_regs (p : List Word) (s : State) : (load p s).regs = Vector.replicate 12 0 := rfl
@[simp] theorem load_ip (p : List Word) (s : State) : (load p s).ip = 0 := rfl
@[simp] theorem load_flags (p : List Word) (s : State) : (load p s).flags = 0 := rfl
@[simp] theorem load_status (p : List Word) (s : State) :
    (load p s).status = if p.length ≥ 1 then .ready else .halted := rfl
@[simp] theorem load_fcause (p : List Word) (s : State) : (load p s).fcause = 0 := rfl
@[simp] theorem load_finfo (p : List Word) (s : State) : (load p s).finfo = 0 := rfl
@[simp] theorem load_prog (p : List Word) (s : State) : (load p s).prog = p := rfl
@[simp] theorem load_mem (p : List Word) (s : State) : (load p s).mem = s.mem := rfl
@[simp] theorem load_cfg (p : List Word) (s : State) : (load p s).cfg = s.cfg := rfl
@[simp] theorem load_replies (p : List Word) (s : State) : (load p s).replies = s.replies := rfl
@[simp] theorem load_requests (p : List Word) (s : State) : (load p s).requests = s.requests := rfl

/-! ### `endOfTick` -/

@[simp] theorem endOfTick_regs (s : State) : (endOfTick s).regs = s.regs := by
  unfold endOfTick; split <;> rfl
@[simp] theorem endOfTick_ip (s : State) : (endOfTick s).ip = s.ip := by
  unfold endOfTick; split <;> rfl
@[simp] theorem endOfTick_flags (s : State) : (endOfTick s).flags = s.flags := by
  unfold endOfTick; split <;> rfl
@[simp] theorem endOfTick_fcause (s : State) : (endOfTick s).fcause = s.fcause := by
  unfold endOfTick; split <;> rfl
@[simp] theorem endOfTick_finfo (s : State) : (endOfTick s).finfo = s.finfo := by
  unfold endOfTick; split <;> rfl
@[simp] theorem endOfTick_prog (s : State) : (endOfTick s).prog = s.prog := by
  unfold endOfTick; split <;> rfl
@[simp] theorem endOfTick_mem (s : State) : (endOfTick s).mem = s.mem := by
  unfold endOfTick; split <;> rfl
@[simp] theorem endOfTick_cfg (s : State) : (endOfTick s).cfg = s.cfg := by
  unfold endOfTick; split <;> rfl
@[simp] theorem endOfTick_replies (s : State) : (endOfTick s).replies = s.replies := by
  unfold endOfTick; split <;> rfl
@[simp] theorem endOfTick_requests (s : State) : (endOfTick s).requests = s.requests := by
  unfold endOfTick; split <;> rfl

@[simp] theorem readReg_endOfTick (s : State) (i : Reg) : readReg (endOfTick s) i = readReg s i := by
  unfold endOfTick; split <;> rfl

/-- The status after the end-of-program test. -/
theorem endOfTick_status (s : State) :
    (endOfTick s).status = if s.status = .ready ∧ progLen s ≤ s.ip.toNat then .halted else s.status := by
  unfold endOfTick; split <;> rfl

/-! ### Registers -/

@[simp] theorem readReg_writeReg_same (s : State) (r : Reg) (v : Word) : readReg (writeReg r v s) r = v := by
  simp [readReg]

theorem readReg_writeReg_other (s : State) {r i : Reg} (v : Word) (h : i ≠ r) :
    readReg (writeReg r v s) i = readReg s i := by
  have hne : r.val ≠ i.val := fun he => h (Fin.ext he.symm)
  simp [readReg, hne]

theorem readReg_commitOk (s : State) (x : Vector Word 12) (f : Word) (m : List Host.Cell) (i : Reg) :
    readReg (commitOk x f m s) i = x[i] := rfl

theorem readReg_load (s : State) (p : List Word) (i : Reg) : readReg (load p s) i = 0 := by
  simp [readReg]

@[simp] theorem readReg_construct (c : Config) (i : Reg) : readReg (State.construct c) i = 0 := by
  simp [readReg, State.construct]

@[simp] theorem progLen_eq (s : State) : progLen s = s.prog.length := rfl

end Sys2Proof.Machine
end

