-- ==== Sys2Proof/Laws/Exec.lean ====
section
/-! SUPPORT. What each shared operation does, said once, and the inversion of `exec`: if it answers `next t`, then `t` is
one of eight updates of the state before. -/

namespace Sys2Proof.Machine

/-! ### The frames of the shared operations -/

theorem samePort_refl (s : State) : SamePort s s := ⟨rfl, rfl⟩

/-- `x[rd] <- v; ip <- ip + 1`. -/
theorem regEffect_writeReg (s : State) (rd : Reg) (v : Word) : RegEffect s (advance (writeReg rd v s)) rd v where
  dest := by simp
  others r hr := by simpa using readReg_writeReg_other s v hr
  ip := rfl
  flags := rfl
  mem _ := rfl
  engine := ⟨rfl, rfl, rfl, rfl, rfl, rfl, rfl⟩

/-- `flags <- v; ip <- ip + 1`. -/
theorem flagsEffect_setFlags (s : State) (v : Word) : FlagsEffect s (advance (setFlags v s)) v where
  flags := rfl
  regs _ := rfl
  ip := rfl
  mem _ := rfl
  engine := ⟨rfl, rfl, rfl, rfl, rfl, rfl, rfl⟩

/-- `ip <- target`. -/
theorem jumpEffect_setIp (s : State) (target : Word) : JumpEffect s (setIp target s) target where
  ip := rfl
  regs _ := rfl
  flags := rfl
  mem _ := rfl
  engine := ⟨rfl, rfl, rfl, rfl, rfl, rfl, rfl⟩

/-- `ip <- ip + 1; status <- Halted`. -/
theorem haltEffect_setStatus (s : State) : HaltEffect s (setStatus .halted (advance s)) where
  ip := rfl
  status := rfl
  regs _ := rfl
  flags := rfl
  mem _ := rfl
  fcause := rfl
  finfo := rfl
  prog := rfl
  cfg := rfl
  port := ⟨rfl, rfl⟩

/-- `MemWrite(ea, 8, v); ip <- ip + 1`. -/
theorem storeEffect_writeWord (s : State) (hm : Memory.wf s.mem) (ea v : Word) :
    StoreEffect s (advance (setMem (s.mem.writeWord s.cfg.byteOrder ea.toNat v) s)) ea v where
  bytes k hk := Memory.readByte_writeWord_inside _ hm _ v k hk
  others a ha := Memory.readByte_writeWord_outside _ hm _ v a ha
  ip := rfl
  regs _ := rfl
  flags := rfl
  engine := ⟨rfl, rfl, rfl, rfl, rfl, rfl, rfl⟩

/-- Taking a fault. -/
theorem faultEffect_raise (s : State) (c : FaultCause) (info : Word) : FaultEffect s (raise c info s) c info where
  fcause := rfl
  finfo := rfl
  status := rfl
  ip := rfl
  regs _ := rfl
  flags := rfl
  mem _ := rfl
  prog := rfl
  cfg := rfl

/-- A storage request that fails. -/
theorem faultEffect_raise_presentRequest (s : State) (q : StorageRequest) (code : Word) :
    FaultEffect s (raise .storageFault code (presentRequest q s)) .storageFault code where
  fcause := rfl
  finfo := rfl
  status := rfl
  ip := rfl
  regs _ := rfl
  flags := rfl
  mem _ := rfl
  prog := rfl
  cfg := rfl

/-- A storage request that is answered. -/
theorem answerEffect_commitOk (s : State) (q : StorageRequest) (x : Vector Word 12) (f : Word)
    (m : List Host.Cell) : AnswerEffect s (commitOk x f m (presentRequest q s)) x f m where
  regs _ := rfl
  flags := rfl
  mem _ ha := Memory.readByte_ofCells m ha
  ip := rfl
  status := rfl
  fcause := rfl
  finfo := rfl
  prog := rfl
  cfg := rfl

/-! ### Memory transactions -/

/-- In bounds means that all 8 bytes lie below `MEM_SIZE`. -/
theorem inBounds_le {c : Config} {a n : Nat} (h : inBounds c a n = true) : a + n ≤ c.memSize := by
  unfold inBounds at h
  split at h <;> simp at h <;> omega

theorem memRead_inBounds {s : State} {ea : Word} (h : inBounds s.cfg ea.toNat 8 = true) :
    memRead s ea = some (s.mem.readWord s.cfg.byteOrder ea.toNat) := by simp [memRead, h]

theorem memRead_outOfBounds {s : State} {ea : Word} (h : inBounds s.cfg ea.toNat 8 = false) :
    memRead s ea = none := by simp [memRead, h]

theorem memWrite_inBounds {s : State} {ea : Word} (v : Word) (h : inBounds s.cfg ea.toNat 8 = true) :
    memWrite s ea v = some (setMem (s.mem.writeWord s.cfg.byteOrder ea.toNat v) s) := by simp [memWrite, h]

theorem memWrite_outOfBounds {s : State} {ea : Word} (v : Word) (h : inBounds s.cfg ea.toNat 8 = false) :
    memWrite s ea v = none := by simp [memWrite, h]

/-- A load: what it does in bounds and out of bounds. -/
theorem loadFrom_eq (ra : Reg) (ea : Word) (s : State) :
    loadFrom ra ea s = .next (if inBounds s.cfg ea.toNat 8 then
      advance (writeReg ra (s.mem.readWord s.cfg.byteOrder ea.toNat) s) else raise .outOfBounds ea s) := by
  unfold loadFrom memRead
  split <;> simp_all [faulting, complete]

/-- A store: what it does in bounds and out of bounds. -/
theorem storeTo_eq (ra : Reg) (ea : Word) (s : State) :
    storeTo ra ea s = .next (if inBounds s.cfg ea.toNat 8 then
      advance (setMem (s.mem.writeWord s.cfg.byteOrder ea.toNat (readReg s ra)) s) else raise .outOfBounds ea s) := by
  unfold storeTo memWrite
  split <;> simp_all [faulting, complete]

/-! ### The storage capability -/

/-- `Replies` is what `replyTo` computes. -/
theorem replies_iff (s : State) (q : StorageRequest) (r : StorageReply) : Replies s q r ↔ replyTo q s = r := by
  unfold Replies replyTo
  cases s.replies with
  | nil => simp [eq_comm]
  | cons a l => simp

/-- A storage call, by the reply. -/
theorem storageEffect_storageCall (op : StorageOp) (raw : OperandField) (s : State) :
    StorageEffect s (requestOf op raw s) (storageCall op raw s) where
  ok x f m h := by
    rw [replies_iff] at h
    exact ⟨commitOk x f m (presentRequest (requestOf op raw s) s), by simp [storageCall, h, commitReply, complete],
      answerEffect_commitOk s _ x f m, rfl, rfl⟩
  fail code h := by
    rw [replies_iff] at h
    exact ⟨raise .storageFault code (presentRequest (requestOf op raw s) s),
      by simp [storageCall, h, commitReply, faulting], faultEffect_raise_presentRequest s _ code, rfl, rfl⟩
  noAnswer h := by
    rw [replies_iff] at h
    simp [storageCall, h, commitReply]

/-! ### The inversion of `exec` -/

/-- The eight ways an instruction takes state `s` to state `t`. -/
inductive Effect (i : Instr) (s t : State) : Prop
  | reg (rd : Reg) (v : Word)
      (hi : i.opcode = .movr ∨ i.opcode = .movi ∨ i.opcode = .ldr ∨ i.opcode = .ldi ∨ i.opcode = .addr ∨
        i.opcode = .subr ∨ i.opcode = .mulr ∨ i.opcode = .divr)
      (ht : t = advance (writeReg rd v s))
  | store (ea v : Word) (hi : i.opcode = .str ∨ i.opcode = .sti) (hb : inBounds s.cfg ea.toNat 8 = true)
      (ht : t = advance (setMem (s.mem.writeWord s.cfg.byteOrder ea.toNat v) s))
  | flags (v : Bool) (hi : i.opcode = .eq ∨ i.opcode = .and ∨ i.opcode = .lt ∨ i.opcode = .not)
      (ht : t = advance (setFlags (b2w v) s))
  | jump (target : Word) (hi : i.opcode = .jmpr ∨ i.opcode = .jmpi) (ht : t = setIp target s)
  | halt (hi : i = .halt) (ht : t = setStatus .halted (advance s))
  | fault (c : FaultCause) (info : Word) (hi : i.opcode.isStorage = false) (ht : t = raise c info s)
  | answer (q : StorageRequest) (x : Vector Word 12) (f : Word) (m : List Host.Cell)
      (hi : i.opcode.isStorage = true) (ht : t = commitOk x f m (presentRequest q s))
  | storageFault (q : StorageRequest) (code : Word) (hi : i.opcode.isStorage = true)
      (ht : t = raise .storageFault code (presentRequest q s))

theorem effect_of_loadFrom {i : Instr} {ra : Reg} {ea : Word} {s t : State} (h : loadFrom ra ea s = .next t)
    (hi : i.opcode = .ldr ∨ i.opcode = .ldi) : Effect i s t := by
  rw [loadFrom_eq] at h
  cases h
  split
  · exact .reg ra _ (by rcases hi with hi | hi <;> simp [hi]) rfl
  · exact .fault _ _ (by rcases hi with hi | hi <;> rw [hi] <;> rfl) rfl

theorem effect_of_storeTo {i : Instr} {ra : Reg} {ea : Word} {s t : State} (h : storeTo ra ea s = .next t)
    (hi : i.opcode = .str ∨ i.opcode = .sti) : Effect i s t := by
  rw [storeTo_eq] at h
  cases h
  split
  · rename_i hb
    exact .store ea _ hi hb rfl
  · exact .fault _ _ (by rcases hi with hi | hi <;> rw [hi] <;> rfl) rfl

theorem effect_of_storageCall {i : Instr} {op : StorageOp} {raw : OperandField} {s t : State}
    (h : storageCall op raw s = .next t) (hi : i.opcode.isStorage = true) : Effect i s t := by
  unfold storageCall commitReply at h
  split at h
  · cases h
  · cases h; exact .storageFault _ _ hi rfl
  · cases h; exact .answer _ _ _ _ hi rfl

/-- If `exec` answers `next t`, then one of the eight cases holds. -/
theorem exec_next {i : Instr} {s t : State} (h : exec i s = .next t) : Effect i s t := by
  cases i with
  | movr ra rb => cases h; exact .reg ra _ (by simp [Instr.opcode]) rfl
  | movi ra imm => cases h; exact .reg ra _ (by simp [Instr.opcode]) rfl
  | ldr ra rb => exact effect_of_loadFrom h (.inl rfl)
  | ldi ra imm => exact effect_of_loadFrom h (.inr rfl)
  | str ra rb => exact effect_of_storeTo h (.inl rfl)
  | sti ra imm => exact effect_of_storeTo h (.inr rfl)
  | addr ra rb rc => cases h; exact .reg ra _ (by simp [Instr.opcode]) rfl
  | subr ra rb rc => cases h; exact .reg ra _ (by simp [Instr.opcode]) rfl
  | mulr ra rb rc => cases h; exact .reg ra _ (by simp [Instr.opcode]) rfl
  | divr ra rb rc =>
    change execDivr ra rb rc s = _ at h
    unfold execDivr at h
    split at h
    · cases h; exact .fault _ _ rfl rfl
    · cases h; exact .reg ra _ (by simp [Instr.opcode]) rfl
  | jmpr ra => cases h; exact .jump _ (.inl rfl) rfl
  | jmpi imm => cases h; exact .jump _ (.inr rfl) rfl
  | eq ra rb => cases h; exact .flags _ (.inl rfl) rfl
  | and ra rb => cases h; exact .flags _ (.inr (.inl rfl)) rfl
  | lt ra rb => cases h; exact .flags _ (.inr (.inr (.inl rfl))) rfl
  | not ra => cases h; exact .flags _ (.inr (.inr (.inr rfl))) rfl
  | sld raw => exact effect_of_storageCall h rfl
  | sst raw => exact effect_of_storageCall h rfl
  | spub raw => exact effect_of_storageCall h rfl
  | ssub raw => exact effect_of_storageCall h rfl
  | halt => cases h; exact .halt rfl rfl

/-- Every instruction but the four storage opcodes ends with a next state. -/
theorem exec_total {i : Instr} (hi : i.opcode.isStorage = false) (s : State) : ∃ t, exec i s = .next t := by
  cases i with
  | ldr ra rb => exact ⟨_, loadFrom_eq ra _ s⟩
  | ldi ra imm => exact ⟨_, loadFrom_eq ra _ s⟩
  | str ra rb => exact ⟨_, storeTo_eq ra _ s⟩
  | sti ra imm => exact ⟨_, storeTo_eq ra _ s⟩
  | divr ra rb rc =>
    change ∃ t, execDivr ra rb rc s = .next t
    unfold execDivr
    split
    · exact ⟨_, rfl⟩
    · exact ⟨_, rfl⟩
  | movr | movi | addr | subr | mulr | jmpr | jmpi | eq | and | lt | not | halt => exact ⟨_, rfl⟩
  | sld | sst | spub | ssub => cases hi

/-- A storage call stops only where no answer comes. -/
theorem storageCall_stop (op : StorageOp) (raw : OperandField) (s : State) :
    (∀ r, storageCall op raw s ≠ .refused r) ∧ ∀ f, storageCall op raw s = .fault f → f = .storageNeverAnswers := by
  unfold storageCall commitReply
  split <;> simp [faulting, complete, eq_comm]

/-- No instruction is refused, and one that stops is a storage opcode without an answer. -/
theorem exec_stop (i : Instr) (s : State) : (∀ r, exec i s ≠ .refused r) ∧
    ∀ f, exec i s = .fault f → f = .storageNeverAnswers ∧ i.opcode.isStorage = true := by
  by_cases hi : i.opcode.isStorage = false
  · obtain ⟨t, ht⟩ := exec_total hi s
    rw [ht]
    exact ⟨fun _ h => (by cases h), fun _ h => (by cases h)⟩
  · have hi' : i.opcode.isStorage = true := by simpa using hi
    cases i with
    | sld | sst | spub | ssub =>
      exact ⟨(storageCall_stop _ _ s).1, fun f h => ⟨(storageCall_stop _ _ s).2 f h, rfl⟩⟩
    | movr | movi | addr | subr | mulr | divr | ldr | ldi | str | sti | jmpr | jmpi | eq | and | lt | not | halt =>
      cases hi'

end Sys2Proof.Machine
end

