-- ==== Sys2Proof/Laws/PerInstr.lean ====
section
/-! SUPPORT. One lemma per instruction, about the instruction as text: its operand field passes the check of
spec/30_encoding.md R95, and decoding that field under its opcode gives the instruction back. -/

namespace Sys2Proof.Laws

/-- The operand field of `i` is well-formed and decodes to `i`. -/
def OperandsRoundTrip.Statement (i : Instr) : Prop :=
  RawInstr.wellFormed ⟨i.opcode, i.operands⟩ = true ∧ decodeOperands i.opcode i.operands = some i

/-- It is enough that the field decodes. -/
theorem operandsRoundTrip_of {i : Instr} (h : decodeOperands i.opcode i.operands = some i) :
    OperandsRoundTrip.Statement i :=
  ⟨by rw [← decodeOperands_isSome, h]; rfl, h⟩

theorem decodeRR_fieldsRR (mk : Reg → Reg → Instr) (ra rb : Reg) :
    decodeRR mk (fieldsRR ra rb) = some (mk ra rb) := by
  simp [decodeRR, fieldsRR, regOf?_ofNat]

theorem decodeRI_fieldsRI (mk : Reg → Imm54 → Instr) (ra : Reg) (imm : Imm54) :
    decodeRI mk (fieldsRI ra imm) = some (mk ra imm) := by
  simp [decodeRI, fieldsRI, regOf?_ofNat]

theorem decodeR_fieldsR (mk : Reg → Instr) (ra : Reg) : decodeR mk (fieldsR ra) = some (mk ra) := by
  simp [decodeR, fieldsR, regOf?_ofNat]

theorem decodeRRR_fieldsRRR (mk : Reg → Reg → Reg → Instr) (ra rb rc : Reg) :
    decodeRRR mk (fieldsRRR ra rb rc) = some (mk ra rb rc) := by
  unfold decodeRRR fieldsRRR
  rw [field57to39_append, field38to20_append, field19to0_append, regOf?_ofNat (by decide), regOf?_ofNat (by decide),
    regOf?_ofNat (by decide)]

theorem OperandsRoundTrip.movr (ra rb : Reg) : OperandsRoundTrip.Statement (.movr ra rb) :=
  operandsRoundTrip_of (decodeRR_fieldsRR _ ra rb)

theorem OperandsRoundTrip.movi (ra : Reg) (imm : Imm54) : OperandsRoundTrip.Statement (.movi ra imm) :=
  operandsRoundTrip_of (decodeRI_fieldsRI _ ra imm)

theorem OperandsRoundTrip.ldr (ra rb : Reg) : OperandsRoundTrip.Statement (.ldr ra rb) :=
  operandsRoundTrip_of (decodeRR_fieldsRR _ ra rb)

theorem OperandsRoundTrip.ldi (ra : Reg) (imm : Imm54) : OperandsRoundTrip.Statement (.ldi ra imm) :=
  operandsRoundTrip_of (decodeRI_fieldsRI _ ra imm)

theorem OperandsRoundTrip.str (ra rb : Reg) : OperandsRoundTrip.Statement (.str ra rb) :=
  operandsRoundTrip_of (decodeRR_fieldsRR _ ra rb)

theorem OperandsRoundTrip.sti (ra : Reg) (imm : Imm54) : OperandsRoundTrip.Statement (.sti ra imm) :=
  operandsRoundTrip_of (decodeRI_fieldsRI _ ra imm)

theorem OperandsRoundTrip.addr (ra rb rc : Reg) : OperandsRoundTrip.Statement (.addr ra rb rc) :=
  operandsRoundTrip_of (decodeRRR_fieldsRRR _ ra rb rc)

theorem OperandsRoundTrip.subr (ra rb rc : Reg) : OperandsRoundTrip.Statement (.subr ra rb rc) :=
  operandsRoundTrip_of (decodeRRR_fieldsRRR _ ra rb rc)

theorem OperandsRoundTrip.mulr (ra rb rc : Reg) : OperandsRoundTrip.Statement (.mulr ra rb rc) :=
  operandsRoundTrip_of (decodeRRR_fieldsRRR _ ra rb rc)

theorem OperandsRoundTrip.divr (ra rb rc : Reg) : OperandsRoundTrip.Statement (.divr ra rb rc) :=
  operandsRoundTrip_of (decodeRRR_fieldsRRR _ ra rb rc)

theorem OperandsRoundTrip.jmpr (ra : Reg) : OperandsRoundTrip.Statement (.jmpr ra) :=
  operandsRoundTrip_of (decodeR_fieldsR _ ra)

theorem OperandsRoundTrip.jmpi (imm : Imm58) : OperandsRoundTrip.Statement (.jmpi imm) :=
  operandsRoundTrip_of rfl

theorem OperandsRoundTrip.eq (ra rb : Reg) : OperandsRoundTrip.Statement (.eq ra rb) :=
  operandsRoundTrip_of (decodeRR_fieldsRR _ ra rb)

theorem OperandsRoundTrip.and (ra rb : Reg) : OperandsRoundTrip.Statement (.and ra rb) :=
  operandsRoundTrip_of (decodeRR_fieldsRR _ ra rb)

theorem OperandsRoundTrip.lt (ra rb : Reg) : OperandsRoundTrip.Statement (.lt ra rb) :=
  operandsRoundTrip_of (decodeRR_fieldsRR _ ra rb)

theorem OperandsRoundTrip.not (ra : Reg) : OperandsRoundTrip.Statement (.not ra) :=
  operandsRoundTrip_of (decodeR_fieldsR _ ra)

theorem OperandsRoundTrip.sld (raw : OperandField) : OperandsRoundTrip.Statement (.sld raw) :=
  operandsRoundTrip_of rfl

theorem OperandsRoundTrip.sst (raw : OperandField) : OperandsRoundTrip.Statement (.sst raw) :=
  operandsRoundTrip_of rfl

theorem OperandsRoundTrip.spub (raw : OperandField) : OperandsRoundTrip.Statement (.spub raw) :=
  operandsRoundTrip_of rfl

theorem OperandsRoundTrip.ssub (raw : OperandField) : OperandsRoundTrip.Statement (.ssub raw) :=
  operandsRoundTrip_of rfl

theorem OperandsRoundTrip.halt : OperandsRoundTrip.Statement .halt :=
  operandsRoundTrip_of (by simp [Instr.operands, Instr.opcode, decodeOperands, decodeN])

end Sys2Proof.Laws
end

