-- ==== Sys2Proof/Laws/Reset.lean ====
section
/-! SUPPORT. The memory's canonical form holds right after reset, and every operation of the machine on memory keeps it. -/

namespace Sys2Proof.Machine

theorem memWf_construct (c : Config) : Memory.wf (State.construct c).mem := ⟨List.Pairwise.nil, by simp [State.construct]⟩

theorem memWf_reset : Memory.wf State.reset.mem := memWf_construct defaultConfig

theorem memWithin_construct (c : Config) : Memory.within c.memSize (State.construct c).mem := by
  simp [State.construct]

theorem memWf_memWrite {s t : State} {ea v : Word} (hm : Memory.wf s.mem) (h : memWrite s ea v = some t) :
    Memory.wf t.mem := by
  unfold memWrite at h
  split at h
  · cases h; exact Memory.wf_writeWord _ hm _ v
  · cases h

theorem memWf_commitOk (x : Vector Word 12) (f : Word) (m : List Host.Cell) (s : State) :
    Memory.wf (commitOk x f m s).mem := Memory.wf_ofCells _ m

end Sys2Proof.Machine
end

