-- ==== Sys2Proof/Laws/Step.lean ====
section
/-! SUPPORT. The tick: what it does in each status, and its inversion. -/

namespace Sys2Proof.Machine

/-- The fault a word that does not decode raises. -/
def causeOf : DecodeFault → FaultCause
  | .undefinedOpcode _ => .undefinedOpcode
  | .illegalOperand _ => .illegalOperand

/-- A decode fault carries the word. -/
theorem decode_fault {o : Ordinals} {w : Word} {f : DecodeFault} (h : decode o w = .fault f) :
    f = .undefinedOpcode w ∨ f = .illegalOperand w := by
  unfold decode at h
  split at h
  · cases h; exact .inl rfl
  · split at h
    · cases h; exact .inr rfl
    · cases h

theorem step_of_not_ready {s : State} (h : s.status ≠ .ready) : step s = .next s := by
  unfold step tick
  cases hs : s.status <;> simp_all

theorem step_of_ready {s : State} (h : s.status = .ready) : step s = tickReady s := by
  unfold step tick
  rw [h]

/-- A tick that runs instruction `i`. -/
theorem step_runs {s : State} {i : Instr} (h : Runs s i) : step s = afterExec (exec i s) := by
  obtain ⟨hr, w, hf, hd⟩ := h
  rw [step_of_ready hr, tickReady, hf]
  simp only [hd]

/-- A tick whose word does not decode. -/
theorem step_decodeFault {s : State} {w : Word} {f : DecodeFault} (hr : s.status = .ready) (hf : fetch s = some w)
    (hd : decode s.cfg.ord w = .fault f) : step s = .next (raise (causeOf f) w s) := by
  rw [step_of_ready hr, tickReady, hf]
  simp only [hd]
  rcases decode_fault hd with rfl | rfl <;> rfl

/-- If a tick answers `next t`, then nothing ran, or the word did not decode, or an instruction ran. -/
theorem step_next {s t : State} (h : step s = .next t) :
    (s.status ≠ .ready ∧ t = s) ∨
    (∃ w f, s.status = .ready ∧ fetch s = some w ∧ decode s.cfg.ord w = .fault f ∧ t = raise (causeOf f) w s) ∨
    (∃ i u, Runs s i ∧ exec i s = .next u ∧ t = endOfTick u) := by
  by_cases hr : s.status = .ready
  · right
    cases hf : fetch s with
    | none =>
      rw [step_of_ready hr, tickReady, hf] at h
      cases h
    | some w =>
      cases hd : decode s.cfg.ord w with
      | fault f =>
        rw [step_decodeFault hr hf hd] at h
        cases h
        exact .inl ⟨w, f, hr, rfl, hd, rfl⟩
      | instr i =>
        have hi : Runs s i := ⟨hr, w, hf, hd⟩
        rw [step_runs hi] at h
        unfold afterExec at h
        split at h
        · rename_i u hu
          cases h
          exact .inr ⟨i, u, hi, hu, rfl⟩
        · cases h
        · cases h
  · rw [step_of_not_ready hr] at h
    cases h
    exact .inl ⟨hr, rfl⟩

/-- The word at `ip` is a word of the program. -/
theorem fetch_isSome_iff (s : State) : (∃ w, fetch s = some w) ↔ s.ip.toNat < progLen s := by
  unfold fetch
  constructor
  · rintro ⟨w, h⟩
    exact (List.getElem?_eq_some_iff.mp h).1
  · intro h
    exact ⟨_, List.getElem?_eq_getElem h⟩

end Sys2Proof.Machine
end

