-- ==== Sys2Proof/Tests/Slice0.lean ====
section
/-! SUPPORT. Tests of the model. Every expected result is a vector of spec/95_test_vectors.md (V1 to V95, A1 to A20, P2,
P5), or worked out by hand from the rule the comment names. After them, for each obligation that has hypotheses, a state
and operands that meet them. -/

namespace Sys2Proof.Tests

open Sys2Proof Sys2Proof.Machine

/-! ### Helpers -/

/-- Registers all 0 but those listed. -/
def regsOf (xs : List (Reg × Word)) : Vector Word 12 :=
  xs.foldl (fun v p => v.set p.1 p.2) (Vector.replicate 12 0)

/-- The start state of the vectors: the word under test at index 0, `HALT` at index 1, Ready, `ip` 0. -/
def vec (w : Word) (xs : List (Reg × Word) := []) (f : Word := 0) (m : Memory := []) : State :=
  { State.reset with status := .ready, prog := [w, 0x5000_0000_0000_0000], regs := regsOf xs, flags := f, mem := m }

/-- `s` with another `MEM_SIZE`. -/
def sized (n : Nat) (s : State) : State := { s with cfg := { s.cfg with memSize := n } }

/-- `s` with `BYTE_ORDER` big. -/
def bigEndian (s : State) : State := { s with cfg := { s.cfg with byteOrder := .big } }

/-- `s` with `BOUND_STRICT` false. -/
def lax (s : State) : State := { s with cfg := { s.cfg with boundStrict := false } }

/-- `s` with what the collaborator will do next. -/
def replying (r : StorageReply) (s : State) : State := { s with replies := [r] }

/-- `s` with the `ip` and the status a tick ended with. -/
def ends (ip : Word) (t : Status) (s : State) : State := { s with ip := ip, status := t }

/-- `s` Faulted, with the fault record. -/
def faults (c : BitVec 3) (info : Word) (s : State) : State := { s with status := .faulted, fcause := c, finfo := info }

/-- The step from `s` ends in the state `t`, field for field. -/
def goesTo (s t : State) : Bool :=
  match step s with
  | .next u => decide (u = t)
  | .fault _ => false
  | .refused _ => false

/-- The step from `s` faults, with this reason. -/
def stopsWith (s : State) (f : Fault) : Bool :=
  match step s with
  | .next _ => false
  | .fault g => decide (g = f)
  | .refused _ => false

theorem step_of_goesTo {s t : State} (h : goesTo s t = true) : step s = .next t := by
  unfold goesTo at h
  split at h
  · rename_i hs
    rw [hs, of_decide_eq_true h]
  · cases h
  · cases h

theorem step_of_stopsWith {s : State} {f : Fault} (h : stopsWith s f = true) : step s = .fault f := by
  unfold stopsWith at h
  split at h
  · cases h
  · rename_i hs
    rw [hs, of_decide_eq_true h]
  · cases h

/-- The bytes 88 77 66 55 44 33 22 11 at 16 .. 23 (V30). -/
def mem16 : Memory :=
  [(16, 0x88), (17, 0x77), (18, 0x66), (19, 0x55), (20, 0x44), (21, 0x33), (22, 0x22), (23, 0x11)]

/-! ### WellFormed refuses ill-formed terms (R92, R95) -/

theorem test_wf_accepts_edges :
    RawInstr.wellFormed ⟨.movr, 0x2C0_0000_0000_000B⟩ = true ∧ RawInstr.wellFormed ⟨.movi, 0x2FF_FFFF_FFFF_FFFF⟩ = true ∧
    RawInstr.wellFormed ⟨.not, 0xB⟩ = true ∧ RawInstr.wellFormed ⟨.addr, 0x000_0580_00B0_000B⟩ = true ∧
    RawInstr.wellFormed ⟨.halt, 0⟩ = true ∧ RawInstr.wellFormed ⟨.jmpi, 0x3FF_FFFF_FFFF_FFFF⟩ = true ∧
    RawInstr.wellFormed ⟨.ssub, 0x3FF_FFFF_FFFF_FFFF⟩ = true := by decide

theorem test_wf_refuses_rr_ra_12 : RawInstr.wellFormed ⟨.movr, 0x300_0000_0000_0000⟩ = false := by decide
theorem test_wf_refuses_rr_rb_12 : RawInstr.wellFormed ⟨.ldr, 0x040_0000_0000_000C⟩ = false := by decide
theorem test_wf_refuses_rr_rb_16 : RawInstr.wellFormed ⟨.str, 0x040_0000_0000_0010⟩ = false := by decide
theorem test_wf_refuses_rr_rb_top_bit : RawInstr.wellFormed ⟨.eq, 0x060_0000_0000_0000⟩ = false := by decide
theorem test_wf_refuses_ri_ra_15 : RawInstr.wellFormed ⟨.movi, 0x3C0_0000_0000_0007⟩ = false := by decide
theorem test_wf_refuses_r_12 : RawInstr.wellFormed ⟨.jmpr, 0xC⟩ = false := by decide
theorem test_wf_refuses_r_top_bit : RawInstr.wellFormed ⟨.not, 0x200_0000_0000_0000⟩ = false := by decide
theorem test_wf_refuses_rrr_ra_12 : RawInstr.wellFormed ⟨.addr, 0x000_0600_0000_0000⟩ = false := by decide
theorem test_wf_refuses_rrr_rb_16 : RawInstr.wellFormed ⟨.subr, 0x000_0000_0100_0000⟩ = false := by decide
theorem test_wf_refuses_rrr_rc_12 : RawInstr.wellFormed ⟨.divr, 0x000_0000_0000_000C⟩ = false := by decide
theorem test_wf_refuses_n_field : RawInstr.wellFormed ⟨.halt, 1⟩ = false := by decide
theorem test_wf_refuses_ord_not_injective : ¬ Ordinals.wf (defaultOrd.set 20 0) := by decide
theorem test_wf_accepts_default_config : Config.wf defaultConfig := by decide

/-! ### Decoding: words written out from R84 to R90, one or more for each constructor -/

theorem test_decode_moves :
    decode defaultOrd 0x02C0_0000_0000_0000 = .instr (.movr 11 0) ∧
    decode defaultOrd 0x0000_0000_0000_000B = .instr (.movr 0 11) ∧
    decode defaultOrd 0x06FF_FFFF_FFFF_FFFF = .instr (.movi 11 0x3F_FFFF_FFFF_FFFF) := by decide

theorem test_decode_load_store :
    decode defaultOrd 0x0900_0000_0000_0003 = .instr (.ldr 4 3) ∧
    decode defaultOrd 0x0C40_0000_0000_0037 = .instr (.ldi 1 55) ∧
    decode defaultOrd 0x1040_0000_0000_0002 = .instr (.str 1 2) ∧
    decode defaultOrd 0x1440_0000_0000_003C = .instr (.sti 1 60) := by decide

theorem test_decode_arithmetic :
    decode defaultOrd 0x1800_0580_00B0_000B = .instr (.addr 11 11 11) ∧
    decode defaultOrd 0x1C00_0180_0010_0002 = .instr (.subr 3 1 2) ∧
    decode defaultOrd 0x2000_0200_0030_0002 = .instr (.mulr 4 3 2) ∧
    decode defaultOrd 0x2400_0380_0010_0000 = .instr (.divr 7 1 0) := by decide

theorem test_decode_control :
    decode defaultOrd 0x2800_0000_0000_000B = .instr (.jmpr 11) ∧
    decode defaultOrd 0x2FFF_FFFF_FFFF_FFFF = .instr (.jmpi 0x3FF_FFFF_FFFF_FFFF) ∧
    decode defaultOrd 0x5000_0000_0000_0000 = .instr .halt := by decide

theorem test_decode_compare_logic :
    decode defaultOrd 0x30C0_0000_0000_0000 = .instr (.eq 3 0) ∧
    decode defaultOrd 0x3440_0000_0000_0002 = .instr (.and 1 2) ∧
    decode defaultOrd 0x3880_0000_0000_0001 = .instr (.lt 2 1) ∧
    decode defaultOrd 0x3C00_0000_0000_0003 = .instr (.not 3) := by decide

theorem test_decode_storage :
    decode defaultOrd 0x43FF_FFFF_FFFF_FFFF = .instr (.sld 0x3FF_FFFF_FFFF_FFFF) ∧
    decode defaultOrd 0x4400_0000_0000_0001 = .instr (.sst 1) ∧
    decode defaultOrd 0x4A00_0000_0000_0000 = .instr (.spub 0x200_0000_0000_0000) ∧
    decode defaultOrd 0x4C00_0000_0000_0000 = .instr (.ssub 0) := by decide

/-- V9 to V12, V24; the last defined ordinal is 20. -/
theorem test_decode_undefined :
    [0x5400_0000_0000_0000, 0xFC00_0000_0000_0000, 0xFFFF_FFFF_FFFF_FFFF, 0x5400_0000_0000_0001,
     0x57C0_0000_0000_0000].all (fun w => decode defaultOrd w == .fault (.undefinedOpcode w)) = true ∧
    decode defaultOrd 0x53FF_FFFF_FFFF_FFFF = .fault (.illegalOperand 0x53FF_FFFF_FFFF_FFFF) := by decide

/-- V13 to V23. -/
theorem test_decode_illegal :
    [0x0300_0000_0000_0000, 0x0040_0000_0000_000C, 0x0040_0000_0000_0010, 0x0060_0000_0000_0000, 0x07C0_0000_0000_0007,
     0x1800_0000_0100_0000, 0x1800_0000_0000_000C, 0x1800_0600_0000_0000, 0x2800_0000_0000_000C, 0x3E00_0000_0000_0000,
     0x5000_0000_0000_0001].all (fun w => decode defaultOrd w == .fault (.illegalOperand w)) = true := by decide

/-- R8: `ORD` is a parameter. Here MOVR and HALT have changed places. -/
theorem test_decode_other_ord :
    decode ((defaultOrd.set 0 20).set 20 0) 0x5040_0000_0000_0002 = .instr (.movr 1 2) ∧
    decode ((defaultOrd.set 0 20).set 20 0) 0 = .instr .halt := by decide

theorem test_decodeTableWord :
    decodeTableWord 64 0x0440_0000_0000_000D = some (.movi 1 13) ∧ decodeTableWord 64 0x5400_0000_0000_0000 = none := by
  decide

theorem test_withFetchWord_runs_first :
    goesTo (State.reset.withFetchWord 64 0x0440_0000_0000_000D)
      (ends 1 .halted { State.reset with prog := [0x0440_0000_0000_000D], regs := regsOf [(1, 13)] }) = true := by decide

/-! ### Single steps -/

theorem test_V25_movr : goesTo (vec 0x0140_0000_0000_0002 [(2, 0xDEAD)])
    (ends 1 .ready (vec 0x0140_0000_0000_0002 [(2, 0xDEAD), (5, 0xDEAD)])) = true := by decide
theorem test_V27_movr_zero : goesTo (vec 0x0140_0000_0000_0000 [(5, 0xDEAD)])
    (ends 1 .ready (vec 0x0140_0000_0000_0000)) = true := by decide
theorem test_V4_movi : goesTo (vec 0x06FF_FFFF_FFFF_FFFF)
    (ends 1 .ready (vec 0x06FF_FFFF_FFFF_FFFF [(11, 0x003F_FFFF_FFFF_FFFF)])) = true := by decide
theorem test_V28_movi_zero : goesTo (vec 0x04C0_0000_0000_0000 [(3, 0xFFFF_FFFF_FFFF_FFFF)])
    (ends 1 .ready (vec 0x04C0_0000_0000_0000)) = true := by decide
theorem test_V32_ldr_misaligned : goesTo (vec 0x0900_0000_0000_0003 [(3, 0x11)] 0 mem16)
    (ends 1 .ready (vec 0x0900_0000_0000_0003 [(3, 0x11), (4, 0x0011_2233_4455_6677)] 0 mem16)) = true := by decide
theorem test_V34_ldr_same_register : goesTo (vec 0x08C0_0000_0000_0003 [(3, 0x10)] 0 mem16)
    (ends 1 .ready (vec 0x08C0_0000_0000_0003 [(3, 0x1122_3344_5566_7788)] 0 mem16)) = true := by decide
theorem test_V31_ldi : goesTo (vec 0x0C80_0000_0000_0010 [] 0 mem16)
    (ends 1 .ready (vec 0x0C80_0000_0000_0010 [(2, 0x1122_3344_5566_7788)] 0 mem16)) = true := by decide
theorem test_V36_ldi_out_of_bounds : goesTo (vec 0x0C40_0000_0000_0038 [(1, 0x55)])
    (faults 2 0x38 (vec 0x0C40_0000_0000_0038 [(1, 0x55)])) = true := by decide
theorem test_V33_str : goesTo (vec 0x1140_0000_0000_0003 [(5, 0xAB), (3, 0x11)] 0 mem16)
    (ends 1 .ready (vec 0x1140_0000_0000_0003 [(5, 0xAB), (3, 0x11)] 0 [(16, 0x88), (17, 0xAB)])) = true := by decide
theorem test_V40_str_out_of_bounds : goesTo (vec 0x1040_0000_0000_0002 [(1, 0xFF), (2, 0xFFFF_FFFF_FFFF_FFF8)])
    (faults 2 0xFFFF_FFFF_FFFF_FFF8 (vec 0x1040_0000_0000_0002 [(1, 0xFF), (2, 0xFFFF_FFFF_FFFF_FFF8)])) = true := by decide
theorem test_V30_sti : goesTo (vec 0x1440_0000_0000_0010 [(1, 0x1122_3344_5566_7788)])
    (ends 1 .ready (vec 0x1440_0000_0000_0010 [(1, 0x1122_3344_5566_7788)] 0 mem16)) = true := by decide
theorem test_V38_sti_straddles : goesTo (vec 0x1440_0000_0000_003C [(1, 0xFF)])
    (faults 2 0x3C (vec 0x1440_0000_0000_003C [(1, 0xFF)])) = true := by decide
theorem test_V46_addr_wraps :
    goesTo (vec 0x1800_0180_0010_0002 [(1, 0xFFFF_FFFF_FFFF_FFFF), (2, 1), (3, 9)] 1)
      (ends 1 .ready (vec 0x1800_0180_0010_0002 [(1, 0xFFFF_FFFF_FFFF_FFFF), (2, 1)] 1)) = true := by decide
theorem test_V47_addr_one_register : goesTo (vec 0x1800_0080_0010_0001 [(1, 0x8000_0000_0000_0000)])
    (ends 1 .ready (vec 0x1800_0080_0010_0001)) = true := by decide
theorem test_V48_subr : goesTo (vec 0x1C00_0180_0010_0002 [(1, 0x64), (2, 7)])
    (ends 1 .ready (vec 0x1C00_0180_0010_0002 [(1, 0x64), (2, 7), (3, 0x5D)])) = true := by decide
theorem test_V49_subr_wraps : goesTo (vec 0x1C00_0180_0000_0002 [(2, 1)])
    (ends 1 .ready (vec 0x1C00_0180_0000_0002 [(2, 1), (3, 0xFFFF_FFFF_FFFF_FFFF)])) = true := by decide
theorem test_V52_mulr_low_half : goesTo (vec 0x2000_0100_0010_0001 [(1, 0xFFFF_FFFF_FFFF_FFFF)])
    (ends 1 .ready (vec 0x2000_0100_0010_0001 [(1, 0xFFFF_FFFF_FFFF_FFFF), (2, 1)])) = true := by decide
theorem test_V54_mulr : goesTo (vec 0x2000_0180_0010_0002 [(1, 0x1234_5678_9ABC_DEF0), (2, 0x10)])
    (ends 1 .ready (vec 0x2000_0180_0010_0002 [(1, 0x1234_5678_9ABC_DEF0), (2, 0x10), (3, 0x2345_6789_ABCD_EF00)])) = true := by
  decide
theorem test_V56_divr_unsigned : goesTo (vec 0x2400_0180_0010_0002 [(1, 0xFFFF_FFFF_FFFF_FFFF), (2, 2)])
    (ends 1 .ready (vec 0x2400_0180_0010_0002 [(1, 0xFFFF_FFFF_FFFF_FFFF), (2, 2), (3, 0x7FFF_FFFF_FFFF_FFFF)])) = true := by
  decide
theorem test_V59_divr_by_zero : goesTo (vec 0x2400_0380_0010_0000 [(1, 0x64), (7, 9)])
    (faults 3 0 (vec 0x2400_0380_0010_0000 [(1, 0x64), (7, 9)])) = true := by decide
theorem test_V62_jmpr : goesTo (vec 0x2800_0000_0000_0001 [(1, 1)])
    (ends 1 .ready (vec 0x2800_0000_0000_0001 [(1, 1)])) = true := by decide
theorem test_V64_jmpr_to_prog_len : goesTo (vec 0x2800_0000_0000_0001 [(1, 2)])
    (ends 2 .halted (vec 0x2800_0000_0000_0001 [(1, 2)])) = true := by decide
theorem test_V67_jmpi_self : goesTo (vec 0x2C00_0000_0000_0000) (vec 0x2C00_0000_0000_0000) = true := by decide
theorem test_V5_jmpi_past_end : goesTo (vec 0x2FFF_FFFF_FFFF_FFFF)
    (ends 0x03FF_FFFF_FFFF_FFFF .halted (vec 0x2FFF_FFFF_FFFF_FFFF)) = true := by decide
theorem test_V61_halt : goesTo (vec 0x5000_0000_0000_0000 [(1, 1)] 1)
    (ends 1 .halted (vec 0x5000_0000_0000_0000 [(1, 1)] 1)) = true := by decide
theorem test_V69_eq_false : goesTo (vec 0x3040_0000_0000_0002 [(1, 5), (2, 9)] 1)
    (ends 1 .ready (vec 0x3040_0000_0000_0002 [(1, 5), (2, 9)] 0)) = true := by decide
theorem test_V71_eq_true : goesTo (vec 0x3100_0000_0000_0004 [(4, 0xFFFF_FFFF_FFFF_FFFF)])
    (ends 1 .ready (vec 0x3100_0000_0000_0004 [(4, 0xFFFF_FFFF_FFFF_FFFF)] 1)) = true := by decide
theorem test_V72_and_logical : goesTo (vec 0x3440_0000_0000_0002 [(1, 1), (2, 2)])
    (ends 1 .ready (vec 0x3440_0000_0000_0002 [(1, 1), (2, 2)] 1)) = true := by decide
theorem test_V73_and_false : goesTo (vec 0x3440_0000_0000_0000 [(1, 5)] 1)
    (ends 1 .ready (vec 0x3440_0000_0000_0000 [(1, 5)] 0)) = true := by decide
theorem test_V77_lt_unsigned : goesTo (vec 0x3800_0000_0000_0002 [(2, 0xFFFF_FFFF_FFFF_FFFF)])
    (ends 1 .ready (vec 0x3800_0000_0000_0002 [(2, 0xFFFF_FFFF_FFFF_FFFF)] 1)) = true := by decide
theorem test_V76_lt_equal : goesTo (vec 0x3840_0000_0000_0001 [(1, 5)] 1)
    (ends 1 .ready (vec 0x3840_0000_0000_0001 [(1, 5)] 0)) = true := by decide
theorem test_V80_not_nonzero : goesTo (vec 0x3C00_0000_0000_0001 [(1, 0x8000_0000_0000_0000)] 1)
    (ends 1 .ready (vec 0x3C00_0000_0000_0001 [(1, 0x8000_0000_0000_0000)] 0)) = true := by decide
theorem test_V81_not_zero : goesTo (vec 0x3C00_0000_0000_0003 [] 1)
    (ends 1 .ready (vec 0x3C00_0000_0000_0003 [] 1)) = true := by decide

/-- The request of a storage opcode in state `s` (R201). -/
def reqOf (op : StorageOp) (raw : OperandField) (s : State) : StorageRequest := ⟨op, raw, s.regs, s.flags, s.mem⟩

/-- After a storage opcode: the reply used up, the request on record. -/
def asked (q : StorageRequest) (s : State) : State := { s with replies := [], requests := q :: s.requests }

theorem test_V82_sld_fails :
    goesTo (replying (.fail 7) (vec 0x4000_0000_0000_0000 [(1, 5)] 1))
      (asked (reqOf .load 0 (vec 0x4000_0000_0000_0000 [(1, 5)] 1))
        (faults 5 7 (vec 0x4000_0000_0000_0000 [(1, 5)] 1))) = true := by decide
theorem test_V87_sld_never_answered :
    stopsWith (replying .noAnswer (vec 0x4000_0000_0000_0000)) .storageNeverAnswers = true := by decide
theorem test_V83_sst_unchanged :
    goesTo (replying (.ok (regsOf [(1, 5)]) 1 mem16) (vec 0x4400_0000_0000_0000 [(1, 5)] 1 mem16))
      (asked (reqOf .store 0 (vec 0x4400_0000_0000_0000 [(1, 5)] 1 mem16))
        (ends 1 .ready (vec 0x4400_0000_0000_0000 [(1, 5)] 1 mem16))) = true := by decide
theorem test_V84_spub_fails :
    goesTo (replying (.fail 0) (vec 0x4800_0000_0000_0000))
      (asked (reqOf .publish 0 (vec 0x4800_0000_0000_0000)) (faults 5 0 (vec 0x4800_0000_0000_0000))) = true := by decide
/-- V85; the answer's cell at 64 is outside the memory, and its cells that hold 0 or repeat an address say nothing. -/
theorem test_V85_ssub_answer :
    goesTo (replying (.ok (regsOf [(1, 9)]) 1 [(0, 0xAA), (0, 1), (64, 2), (3, 0)]) (vec 0x4C00_0000_0000_0000 [(1, 5)] 0 mem16))
      (asked (reqOf .subscribe 0 (vec 0x4C00_0000_0000_0000 [(1, 5)] 0 mem16))
        (ends 1 .ready (vec 0x4C00_0000_0000_0000 [(1, 9)] 1 [(0, 0xAA)]))) = true := by decide

/-! ### Decode faults, bounds at their edges, parameters -/

theorem test_V9_undefined_opcode : goesTo (vec 0x5400_0000_0000_0000 [(1, 5)] 1)
    (faults 1 0x5400_0000_0000_0000 (vec 0x5400_0000_0000_0000 [(1, 5)] 1)) = true := by decide
theorem test_V13_illegal_operand : goesTo (vec 0x0300_0000_0000_0000 [(1, 5)])
    (faults 4 0x0300_0000_0000_0000 (vec 0x0300_0000_0000_0000 [(1, 5)])) = true := by decide
/-- V35, V36; with `BOUND_STRICT` false 56 is in bounds and 57 is not (R55). -/
theorem test_bounds_edges :
    inBounds defaultConfig 55 8 = true ∧ inBounds defaultConfig 56 8 = false ∧
    inBounds { defaultConfig with boundStrict := false } 56 8 = true ∧
    inBounds { defaultConfig with boundStrict := false } 57 8 = false := by decide
/-- V42, V43, V44. -/
theorem test_bounds_small :
    inBounds { defaultConfig with memSize := 8 } 0 8 = false ∧ inBounds { defaultConfig with memSize := 9 } 0 8 = true ∧
    inBounds { defaultConfig with memSize := 9 } 1 8 = false ∧ inBounds { defaultConfig with memSize := 0 } 0 8 = false := by
  decide
/-- P5, index 3, with `BOUND_STRICT` false. -/
theorem test_P5_lax_store : goesTo (lax (vec 0x1040_0000_0000_0002 [(1, 0xFF), (2, 56)]))
    (ends 1 .ready (lax (vec 0x1040_0000_0000_0002 [(1, 0xFF), (2, 56)] 0 [(56, 0xFF)]))) = true := by decide
/-- P2, index 1, big-endian. -/
theorem test_P2_big_endian_store : goesTo (bigEndian (vec 0x1440_0000_0000_0010 [(1, 0x1234)]))
    (ends 1 .ready (bigEndian (vec 0x1440_0000_0000_0010 [(1, 0x1234)] 0 [(22, 0x12), (23, 0x34)]))) = true := by decide
/-- P2, index 4, big-endian. -/
theorem test_P2_big_endian_load :
    goesTo (bigEndian (vec 0x0900_0000_0000_0003 [(3, 17)] 0 [(22, 0x12), (23, 0x34)]))
      (ends 1 .ready (bigEndian (vec 0x0900_0000_0000_0003 [(3, 17), (4, 0x12_3400)] 0 [(22, 0x12), (23, 0x34)]))) = true := by
  decide

/-! ### Reset, load, ticks outside Ready -/

/-- The end state of P5 (V92). -/
def endOfP5 : State := faults 2 56 (ends 3 .faulted (vec 0x0440_0000_0000_00FF [(1, 0xFF), (2, 56)] 0 [(55, 0xFF)]))

theorem test_V88_load_empty : load [] State.reset = ends 0 .halted State.reset := by decide
theorem test_V90_idle_tick : goesTo State.reset State.reset = true := by decide
theorem test_V91_faulted_tick : goesTo endOfP5 endOfP5 = true := by decide
theorem test_V92_load_after_fault : load [0x0440_0000_0000_000D, 0x0480_0000_0000_0010, 0x1800_0180_0010_0002] endOfP5 =
    { State.reset with prog := [0x0440_0000_0000_000D, 0x0480_0000_0000_0010, 0x1800_0180_0010_0002], status := .ready,
                       mem := [(55, 0xFF)] } := by decide
theorem test_V94_reset_after_fault : hostReset 64 endOfP5 = State.reset := by decide
/-- The last instruction of a program leaves it Halted with `ip` = `PROG_LEN` (P1, tick 3). -/
theorem test_P1_last_tick : goesTo { State.reset with status := .ready, prog := [0, 0x1800_0180_0010_0002], ip := 1, regs := regsOf [(1, 13), (2, 16)] }
    (ends 2 .halted { State.reset with prog := [0, 0x1800_0180_0010_0002], regs := regsOf [(1, 13), (2, 16), (3, 29)] }) = true := by
  decide
theorem test_ready_past_end_stops : stopsWith { State.reset with status := .ready } .fetchOutsideProgram = true := by decide

/-! ### The encoder's text (section 4 of spec/95_test_vectors.md) -/

theorem test_asm_A3_comment : assembleLine defaultOrd "MOVI %r1 $13 ; load 13".toList = .ok (some 0x0440_0000_0000_000D) := by
  decide
theorem test_asm_A2_no_word : assembleLine defaultOrd "; just a comment".toList = .ok none := by decide
theorem test_asm_A4_whitespace : assembleLine defaultOrd "   ADDR   %r3  %r1   %r2".toList = .ok (some 0x1800_0180_0010_0002) := by
  decide
theorem test_asm_A6_register_bound : assembleLine defaultOrd "MOVI %r12 $1".toList = .error .registerNumOutOfBounds := by
  decide
theorem test_asm_A8_sigil : assembleLine defaultOrd "MOVI r1 $1".toList = .error .sigilMissing := by decide
theorem test_asm_A10_overflow : assembleLine defaultOrd "MOVI %r1 $18014398509481984".toList = .error .overflow := by decide
theorem test_asm_A14_arity : assembleLine defaultOrd "ADDR %r1 %r2 %r3 %r4".toList = .error .notEnoughArgs := by decide
theorem test_asm_A15_case : assembleLine defaultOrd "addr %r1 %r2 %r3".toList = .error .unknownMnemonic := by decide
theorem test_asm_A17_negative : assembleLine defaultOrd "MOVI %r1 $-1".toList = .error .invalidOperand := by decide
theorem test_asm_A19_whole_program :
    assemble defaultOrd ["MOVI %r1 $1".toList, "BOGUS".toList, "MOVI %r2 $2".toList] = .error .unknownMnemonic := by decide
theorem test_asm_A20_storage : assembleLine defaultOrd "SLD".toList = .error .noOperandSyntax := by decide

/-! ### Witnesses: the hypotheses of every obligation that has some, met together, clause by clause -/

theorem runs_of {s : State} {w : Word} {i : Instr} (hr : s.status = .ready) (hw : fetch s = some w)
    (hd : decode s.cfg.ord w = .instr i) : Runs s i := ⟨hr, w, hw, hd⟩

/-- A state runs at most one instruction. -/
theorem runs_unique {s : State} {i j : Instr} (hi : Runs s i) (hj : Runs s j) : i = j := by
  obtain ⟨-, w, hw, hd⟩ := hi
  obtain ⟨-, w', hw', hd'⟩ := hj
  rw [hw] at hw'
  cases hw'
  rw [hd] at hd'
  cases hd'
  rfl

theorem ordinary_of_runs {s : State} {i : Instr} (h : Runs s i) (hi : i.opcode.isStorage = false) :
    ∀ j, Runs s j → j.opcode.isStorage = false := fun _ hj => runs_unique h hj ▸ hi

/-- The start state of a vector meets the invariant. -/
theorem machineInv_vec (w : Word) (xs : List (Reg × Word)) (f : Word) (m : Memory) (hm : Memory.wf m)
    (hw : Memory.within 64 m) : MachineInv (vec w xs f m) where
  memWf := hm
  memWithin := hw
  readyIp _ := Nat.zero_lt_succ 1
  faultRecorded := ⟨fun h => absurd rfl h, fun h => Status.noConfusion h⟩
  fcauseLegal := Nat.zero_le 5
  finfoClear _ := rfl
  progLenBound := (by decide : 2 < 2 ^ 64)
  idleEmpty h := Status.noConfusion h
  cfgWf := (by decide : Config.wf defaultConfig)

theorem machineInv_replying (r : StorageReply) {s : State} (h : MachineInv s) : MachineInv (replying r s) :=
  ⟨h.memWf, h.memWithin, h.readyIp, h.faultRecorded, h.fcauseLegal, h.finfoClear, h.progLenBound, h.idleEmpty, h.cfgWf⟩

/-- `MOVI %r1 $13`, the first word of the source's example. -/
def sMovi : State := vec 0x0440_0000_0000_000D
/-- `EQ %r3 %r0`. -/
def sEq : State := vec 0x30C0_0000_0000_0000
/-- `STI %r1 $55`, at the last address in bounds. -/
def sSti : State := vec 0x1440_0000_0000_0037 [(1, 0xFF)]
/-- `STI %r1 $56`, one past it. -/
def sStiOut : State := vec 0x1440_0000_0000_0038 [(1, 0xFF)]
/-- `SSUB` that is answered. -/
def sSsub : State := replying (.ok (regsOf [(1, 9)]) 1 [(0, 0xAA)]) (vec 0x4C00_0000_0000_0000 [(1, 5)])
/-- `SLD` that is never answered. -/
def sSldStuck : State := replying .noAnswer (vec 0x4000_0000_0000_0000)

theorem runs_sMovi : Runs sMovi (.movi 1 13) := runs_of rfl rfl (by decide)
theorem runs_sEq : Runs sEq (.eq 3 0) := runs_of rfl rfl (by decide)
theorem runs_sSti : Runs sSti (.sti 1 55) := runs_of rfl rfl (by decide)
theorem runs_sStiOut : Runs sStiOut (.sti 1 56) := runs_of rfl rfl (by decide)
theorem runs_sSsub : Runs sSsub (.ssub 0) := runs_of rfl rfl (by decide)
theorem runs_sSldStuck : Runs sSldStuck (.sld 0) := runs_of rfl rfl (by decide)

theorem step_sMovi : step sMovi = .next (ends 1 .ready (vec 0x0440_0000_0000_000D [(1, 13)])) :=
  step_of_goesTo (by decide)
theorem step_sEq : step sEq = .next (ends 1 .ready (vec 0x30C0_0000_0000_0000 [] 1)) := step_of_goesTo (by decide)
theorem step_sSti : step sSti = .next (ends 1 .ready (vec 0x1440_0000_0000_0037 [(1, 0xFF)] 0 [(55, 0xFF)])) :=
  step_of_goesTo (by decide)
theorem step_sStiOut : step sStiOut = .next (faults 2 56 sStiOut) := step_of_goesTo (by decide)
theorem step_sSsub : step sSsub = .next (asked (reqOf .subscribe 0 (vec 0x4C00_0000_0000_0000 [(1, 5)]))
    (ends 1 .ready (vec 0x4C00_0000_0000_0000 [(1, 9)] 1 [(0, 0xAA)]))) := step_of_goesTo (by decide)
theorem step_sSldStuck : step sSldStuck = .fault .storageNeverAnswers := step_of_stopsWith (by decide)

/-! #### Construction, load, decoding -/

theorem witness_ConstructionLeavesEverythingZero :
    (State.reset = State.construct defaultConfig ∨ State.reset = hostReset 64 endOfP5) ∧
    (hostReset 9 endOfP5 = State.construct defaultConfig ∨ hostReset 9 endOfP5 = hostReset 9 endOfP5) :=
  ⟨.inl rfl, .inr rfl⟩

theorem witness_UndefinedOpcodeWordsFault :
    (∀ m, ordinal defaultOrd m ≠ (0x5400_0000_0000_0000 : Word).extractLsb' 58 6) ∧
    (0x5400_0000_0000_0000 ≤ (0x5400_0000_0000_0000 : Word).toNat) ∧
    (vec 0x5400_0000_0000_0000).status = .ready ∧ fetch (vec 0x5400_0000_0000_0000) = some 0x5400_0000_0000_0000 :=
  ⟨fun m => by cases m <;> decide, by decide, rfl, rfl⟩

theorem witness_IllegalOperandWordsFault :
    Ordinals.wf defaultOrd ∧ ordinal defaultOrd .movr = (0x0300_0000_0000_0000 : Word).extractLsb' 58 6 ∧
    RawInstr.wellFormed ⟨.movr, (0x0300_0000_0000_0000 : Word).extractLsb' 0 58⟩ = false ∧
    (vec 0x0300_0000_0000_0000).cfg.wf ∧ (vec 0x0300_0000_0000_0000).status = .ready ∧
    fetch (vec 0x0300_0000_0000_0000) = some 0x0300_0000_0000_0000 :=
  ⟨by decide, by decide, by decide, by decide, rfl, rfl⟩

theorem witness_DecodeOfEncodeIsIdentity : Ordinals.wf defaultOrd ∧ Ordinals.wf ((defaultOrd.set 0 63).set 20 0) :=
  ⟨by decide, by decide⟩

theorem witness_EncodeOfDecodeIsIdentity : decode defaultOrd 0x43FF_FFFF_FFFF_FFFF = .instr (.sld 0x3FF_FFFF_FFFF_FFFF) := by
  decide

/-- The hypotheses of the word clauses `WordsRR`, `WordsRI`, `WordsR`, `WordsRRR`, `WordsN`, at 11 and at 12, and with the
top bit of each field. -/
theorem witness_words_clauses :
    Ordinals.wf defaultOrd ∧ (11#4).toNat < 12 ∧ (11#54).toNat < 12 ∧ (12 ≤ (12#4).toNat ∨ 12 ≤ (11#54).toNat) ∧
    (12 ≤ (11#4).toNat ∨ 12 ≤ (0x20_0000_0000_0000#54).toNat) ∧ (11#58).toNat < 12 ∧ 12 ≤ (0x200_0000_0000_0000#58).toNat ∧
    (11#19).toNat < 12 ∧ (11#20).toNat < 12 ∧ (12 ≤ (11#19).toNat ∨ 12 ≤ (0x40000#19).toNat ∨ 12 ≤ (0x80000#20).toNat) ∧
    (0#58 = 0) ∧ (1#58 ≠ 0) := by decide

/-! #### Loads, stores, division, storage -/

/-- In bounds at 55, out of bounds at 56 (register and immediate address alike); 56 and 57 with `BOUND_STRICT` false. -/
theorem witness_bounds_clauses :
    InBounds defaultConfig 55 ∧ ¬ InBounds defaultConfig 56 ∧
    InBounds { defaultConfig with boundStrict := false } 56 ∧ ¬ InBounds { defaultConfig with boundStrict := false } 57 ∧
    InBounds defaultConfig (BitVec.ofNat 64 (55#54).toNat) ∧ ¬ InBounds defaultConfig (BitVec.ofNat 64 (56#54).toNat) ∧
    Memory.wf mem16 := by
  unfold InBounds
  decide

/-- LDR, LDI, STR, STI: states in which each side of `LoadRule` and `StoreRule` applies. -/
theorem witness_load_store_clauses :
    InBounds (vec 0 [(2, 55)]).cfg (readReg (vec 0 [(2, 55)]) 2) ∧ ¬ InBounds (vec 0 [(2, 56)]).cfg (readReg (vec 0 [(2, 56)]) 2) ∧
    Memory.wf (vec 0 [(2, 55)] 0 mem16).mem := by
  unfold InBounds
  decide

theorem witness_DivrDividesOrFaults :
    readReg (vec 0 [(1, 7), (2, 1)]) 2 ≠ 0 ∧ readReg (vec 0 [(1, 7)]) 2 = 0 := by decide

/-- Each kind of reply, known beforehand. -/
theorem witness_storage_known (op : StorageOp) (raw : OperandField) :
    Replies sSsub (reqOf op raw sSsub) (.ok (regsOf [(1, 9)]) 1 [(0, 0xAA)]) ∧
    Replies (replying (.fail 7) sMovi) (reqOf op raw (replying (.fail 7) sMovi)) (.fail 7) ∧
    Replies sSldStuck (reqOf op raw sSldStuck) .noAnswer := ⟨.inl rfl, .inl rfl, .inl rfl⟩

/-- With no reply known the reply is the free value, whatever it is. -/
theorem witness_storage_free (op : StorageOp) (raw : OperandField) :
    ∃ r, Replies sMovi (reqOf op raw sMovi) r := ⟨_, .inr ⟨rfl, rfl⟩⟩

theorem witness_StorageOpcodesCompleteOnAnswer :
    ((Instr.sld 0 = .sld 0 ∨ Instr.sld 0 = .sst 0 ∨ Instr.sld 0 = .spub 0 ∨ Instr.sld 0 = .ssub 0) ∧
      (Instr.sst 0 = .sld 0 ∨ Instr.sst 0 = .sst 0 ∨ Instr.sst 0 = .spub 0 ∨ Instr.sst 0 = .ssub 0) ∧
      (Instr.spub 0 = .sld 0 ∨ Instr.spub 0 = .sst 0 ∨ Instr.spub 0 = .spub 0 ∨ Instr.spub 0 = .ssub 0) ∧
      (Instr.ssub 0 = .sld 0 ∨ Instr.ssub 0 = .sst 0 ∨ Instr.ssub 0 = .spub 0 ∨ Instr.ssub 0 = .ssub 0)) ∧
    sSsub.replies = .ok (regsOf [(1, 9)]) 1 [(0, 0xAA)] :: [] ∧ sSsub.cfg.memSize ≤ 64 := by decide

/-! #### The tick -/

/-- A word that decodes (its instruction completing, and stopping), an undefined opcode, an illegal operand. -/
theorem witness_StepRunsDecodedInstruction :
    (sMovi.status = .ready ∧ sMovi.prog[sMovi.ip.toNat]? = some 0x0440_0000_0000_000D ∧
      decode sMovi.cfg.ord 0x0440_0000_0000_000D = .instr (.movi 1 13) ∧ ∃ u, exec (.movi 1 13) sMovi = .next u) ∧
    (sSldStuck.status = .ready ∧ sSldStuck.prog[sSldStuck.ip.toNat]? = some 0x4000_0000_0000_0000 ∧
      decode sSldStuck.cfg.ord 0x4000_0000_0000_0000 = .instr (.sld 0) ∧ ∃ f, exec (.sld 0) sSldStuck = .fault f) ∧
    ((vec 0x5400_0000_0000_0000).prog[(vec 0x5400_0000_0000_0000).ip.toNat]? = some 0x5400_0000_0000_0000 ∧
      decode defaultOrd 0x5400_0000_0000_0000 = .fault (.undefinedOpcode 0x5400_0000_0000_0000)) ∧
    ((vec 0x0300_0000_0000_0000).prog[(vec 0x0300_0000_0000_0000).ip.toNat]? = some 0x0300_0000_0000_0000 ∧
      decode defaultOrd 0x0300_0000_0000_0000 = .fault (.illegalOperand 0x0300_0000_0000_0000)) :=
  ⟨⟨rfl, rfl, by decide, _, rfl⟩, ⟨rfl, rfl, by decide, _, rfl⟩, ⟨rfl, by decide⟩, ⟨rfl, by decide⟩⟩

/-- A store that faults, a move that completes, and both jumps. -/
theorem witness_SequencingOfEveryInstruction :
    (Runs sStiOut (.sti 1 56) ∧ ∃ t, step sStiOut = .next t ∧ t.status = .faulted) ∧
    (Runs sMovi (.movi 1 13) ∧ (∃ t, step sMovi = .next t ∧ t.status ≠ .faulted) ∧
      (Instr.movi 1 13).opcode ≠ .jmpr ∧ (Instr.movi 1 13).opcode ≠ .jmpi) ∧
    (Runs (vec 0x2800_0000_0000_0001 [(1, 2)]) (.jmpr 1) ∧
      ∃ t, step (vec 0x2800_0000_0000_0001 [(1, 2)]) = .next t ∧ t.status ≠ .faulted) ∧
    (Runs (vec 0x2C00_0000_0000_0000) (.jmpi 0) ∧ ∃ t, step (vec 0x2C00_0000_0000_0000) = .next t ∧ t.status ≠ .faulted) :=
  ⟨⟨runs_sStiOut, _, step_sStiOut, by decide⟩, ⟨runs_sMovi, ⟨_, step_sMovi, by decide⟩, by decide, by decide⟩,
    ⟨runs_of rfl rfl (by decide), _, step_of_goesTo test_V64_jmpr_to_prog_len, by decide⟩,
    runs_of rfl rfl (by decide), _, step_of_goesTo test_V67_jmpi_self, by decide⟩

theorem witness_TickOutsideReadyChangesNothing :
    State.reset.status = .idle ∧ (ends 2 .halted sMovi).status = .halted ∧ endOfP5.status = .faulted := by decide

theorem witness_StatusTransitionTable :
    ([0x5000_0000_0000_0000] : List Word) ≠ [] ∧ State.reset.status ≠ .ready ∧
    (Runs (vec 0x5000_0000_0000_0000) .halt ∧
      ∃ u, exec .halt (vec 0x5000_0000_0000_0000) = .next u ∧ u.status ≠ .faulted) ∧
    (Runs (vec 0x2C00_0000_0000_0002) (.jmpi 2) ∧ ∃ u, exec (.jmpi 2) (vec 0x2C00_0000_0000_0002) = .next u ∧
      u.status ≠ .faulted ∧ progLen (vec 0x2C00_0000_0000_0002) ≤ u.ip.toNat) ∧
    (Runs sMovi (.movi 1 13) ∧ ∃ u, exec (.movi 1 13) sMovi = .next u ∧ u.status ≠ .faulted ∧ u.ip.toNat < progLen sMovi) ∧
    (Runs sStiOut (.sti 1 56) ∧ ∃ u, exec (.sti 1 56) sStiOut = .next u ∧ u.status = .faulted) ∧
    (fetch (vec 0x5400_0000_0000_0000) = some 0x5400_0000_0000_0000 ∧
      decode defaultOrd 0x5400_0000_0000_0000 = .fault (.undefinedOpcode 0x5400_0000_0000_0000)) :=
  ⟨by decide, by decide, ⟨runs_of rfl rfl (by decide), _, rfl, by decide⟩,
    ⟨runs_of rfl rfl (by decide), _, rfl, by decide, by decide⟩, ⟨runs_sMovi, _, rfl, by decide, by decide⟩,
    ⟨runs_sStiOut, _, rfl, by decide⟩, rfl, by decide⟩

theorem witness_FaultedTickChangesOnlyFaultRecord :
    (sStiOut.status = .ready ∧ step sStiOut = .next (faults 2 56 sStiOut) ∧ (faults 2 56 sStiOut).status = .faulted) ∧
    (fetch (vec 0x0300_0000_0000_0000) = some 0x0300_0000_0000_0000 ∧
      decode defaultOrd 0x0300_0000_0000_0000 = .fault (.illegalOperand 0x0300_0000_0000_0000)) ∧
    (Runs sStiOut (.sti 1 56) ∧ ∃ u, exec (.sti 1 56) sStiOut = .next u ∧ u.status = .faulted) :=
  ⟨⟨rfl, step_sStiOut, rfl⟩, ⟨rfl, by decide⟩, runs_sStiOut, _, rfl, by decide⟩

theorem witness_HaltedAndFaultedAreTerminal :
    (ends 2 .halted sMovi).status = .halted ∧ endOfP5.status = .faulted ∧ ([0] : List Word) ≠ [] := by decide

theorem witness_ProgramChangesOnlyByLoad : ∃ t, step sMovi = .next t := ⟨_, step_sMovi⟩

/-- A store and a storage answer that change byte 55 and byte 0. -/
theorem witness_MemoryChangesOnlyByStores :
    (∃ t, step sSti = .next t ∧ t.mem.readByte 55 ≠ sSti.mem.readByte 55) ∧
    (∃ t, step sSsub = .next t ∧ t.mem.readByte 0 ≠ sSsub.mem.readByte 0) :=
  ⟨⟨_, step_sSti, by decide⟩, _, step_sSsub, by decide⟩

theorem witness_AtMostOneRegisterPerTick :
    (∃ t, step sMovi = .next t) ∧ ∀ i, Runs sMovi i → i.opcode.isStorage = false :=
  ⟨⟨_, step_sMovi⟩, ordinary_of_runs runs_sMovi rfl⟩

theorem witness_FlagsWrittenOnlyByComparisons :
    (∃ t, step sEq = .next t ∧ t.flags ≠ sEq.flags) ∧ (∃ t, step sSsub = .next t ∧ t.flags ≠ sSsub.flags) :=
  ⟨⟨_, step_sEq, by decide⟩, _, step_sSsub, by decide⟩

theorem witness_FlagsAreNeverRead :
    (∀ i, Runs sEq i → i.opcode.isStorage = false) ∧ ∃ t, step sEq = .next t :=
  ⟨ordinary_of_runs runs_sEq rfl, _, step_sEq⟩

theorem witness_FlagsStayBoolean :
    ((∀ i, Runs sEq i → i.opcode.isStorage = false) ∧ (∃ t, step sEq = .next t) ∧ sEq.flags = 0) ∧
    ((∀ i, Runs (vec 0x5000_0000_0000_0000 [(1, 1)] 1) i → i.opcode.isStorage = false) ∧
      (∃ t, step (vec 0x5000_0000_0000_0000 [(1, 1)] 1) = .next t) ∧ (vec 0x5000_0000_0000_0000 [(1, 1)] 1).flags = 1) :=
  ⟨⟨ordinary_of_runs runs_sEq rfl, ⟨_, step_sEq⟩, rfl⟩,
    ordinary_of_runs (runs_of (i := .halt) rfl rfl (by decide)) rfl, ⟨_, step_of_goesTo test_V61_halt⟩, rfl⟩

/-! #### The invariant -/

theorem witness_ConstructionMeetsInvariant : Config.wf defaultConfig ∧ Config.wf { defaultConfig with memSize := 0 } := by
  decide

theorem witness_StepKeepsInvariant :
    (MachineInv sSti ∧ ∃ t, step sSti = .next t) ∧ (MachineInv sStiOut ∧ ∃ t, step sStiOut = .next t) ∧
    (MachineInv sSsub ∧ ∃ t, step sSsub = .next t) :=
  ⟨⟨machineInv_vec _ _ _ _ (by decide) (by decide), _, step_sSti⟩,
    ⟨machineInv_vec _ _ _ _ (by decide) (by decide), _, step_sStiOut⟩,
    machineInv_replying _ (machineInv_vec _ _ _ _ (by decide) (by decide)), _, step_sSsub⟩

theorem witness_LoadAndResetKeepInvariant : MachineInv sSti ∧ programWf [] ∧ programWf [0, 1] :=
  ⟨machineInv_vec _ _ _ _ (by decide) (by decide), by decide, by decide⟩

theorem witness_TickStopsOnlyWithoutAnswer :
    (MachineInv sMovi ∧ sMovi.status = .ready ∧ ∀ i, Runs sMovi i → i.opcode.isStorage = false) ∧
    (MachineInv sSldStuck ∧ step sSldStuck = .fault .storageNeverAnswers) :=
  ⟨⟨machineInv_vec _ _ _ _ (by decide) (by decide), rfl, ordinary_of_runs runs_sMovi rfl⟩,
    machineInv_replying _ (machineInv_vec _ _ _ _ (by decide) (by decide)), step_sSldStuck⟩

theorem witness_IncrementNeverWraps : MachineInv sMovi ∧ sMovi.status = .ready :=
  ⟨machineInv_vec _ _ _ _ (by decide) (by decide), rfl⟩

/-! #### Memory -/

theorem witness_MemWriteAllOrNothing :
    (Memory.wf (vec 0 [] 0 mem16).mem ∧ InBounds (vec 0 [] 0 mem16).cfg 55) ∧ ¬ InBounds (vec 0).cfg 56 := by
  unfold InBounds
  decide

theorem witness_MemReadAssemblesBytes : InBounds (vec 0).cfg 55 ∧ ¬ InBounds (vec 0).cfg 56 := by
  unfold InBounds
  decide

/-- `MEM_SIZE` 8 and 9, and the highest address. -/
theorem witness_BoundsTestIsUnbounded :
    (defaultConfig.boundStrict = true ∧ (sized 8 sMovi).cfg.memSize ≤ 8) ∧
    ((sized 9 sMovi).cfg.boundStrict = true ∧ InBounds (sized 9 sMovi).cfg 0) ∧
    ((sized (2 ^ 64) (lax sMovi)).cfg.memSize ≤ 2 ^ 64 ∧ (0xFFFF_FFFF_FFFF_FFFF : Word).toNat = 2 ^ 64 - 1) := by
  unfold InBounds
  decide

theorem witness_LoadReturnsStoredValue :
    Memory.wf (vec 0 [(2, 55)]).mem ∧ InBounds (vec 0 [(2, 55)]).cfg (readReg (vec 0 [(2, 55)]) 2) ∧
    InBounds (vec 0 [(2, 55)]).cfg (BitVec.ofNat 64 (55#54).toNat) := by
  unfold InBounds
  decide

theorem witness_MemoriesThatReadAlikeAreEqual :
    Memory.wf mem16 ∧ Memory.wf (mem16.writeByte 3 0) ∧ ∀ a, mem16.readByte a = (mem16.writeByte 3 0).readByte a :=
  ⟨by decide, by decide, fun _ => rfl⟩

/-! #### Ports, jumps, reports, the encoder's text -/

theorem witness_OneRequestPerStorageOpcode :
    ((∃ t, step sMovi = .next t) ∧ ∀ i, Runs sMovi i → i.opcode.isStorage = false) ∧
    ((∃ t, step sSsub = .next t) ∧ Runs sSsub (.ssub 0) ∧ (Instr.ssub 0).opcode.isStorage = true) :=
  ⟨⟨⟨_, step_sMovi⟩, ordinary_of_runs runs_sMovi rfl⟩, ⟨_, step_sSsub⟩, runs_sSsub, rfl⟩

theorem witness_SourcesReadBeforeDestination : InBounds (vec 0 [(3, 0x10)] 0 mem16).cfg (readReg (vec 0 [(3, 0x10)] 0 mem16) 3) := by
  unfold InBounds
  decide

/-- JMPR to `PROG_LEN` and just before it; JMPI far past the end. -/
theorem witness_JumpTargetsNeverFault :
    (Runs (vec 0x2800_0000_0000_0001 [(1, 2)]) (.jmpr 1) ∧ readReg (vec 0x2800_0000_0000_0001 [(1, 2)]) 1 = 2) ∧
    (Runs (vec 0x2800_0000_0000_0001 [(1, 1)]) (.jmpr 1) ∧ readReg (vec 0x2800_0000_0000_0001 [(1, 1)]) 1 = 1) ∧
    (Runs (vec 0x2FFF_FFFF_FFFF_FFFF) (.jmpi 0x3FF_FFFF_FFFF_FFFF) ∧
      (0x03FF_FFFF_FFFF_FFFF : Word).toNat = (0x3FF_FFFF_FFFF_FFFF : Imm58).toNat) :=
  ⟨⟨runs_of rfl rfl (by decide), by decide⟩, ⟨runs_of rfl rfl (by decide), by decide⟩, runs_of rfl rfl (by decide),
    by decide⟩

theorem witness_TickReportsFaultRecord : endOfP5.status = .faulted ∧ State.reset.status ≠ .faulted ∧ State.reset.status ≠ .ready := by
  decide

theorem witness_AssembledWordsDecode : Ordinals.wf defaultOrd ∧
    assemble defaultOrd ["MOVI %r1 $13".toList, "; only a comment".toList, "ADDR %r3 %r1 %r2".toList] =
      .ok [0x0440_0000_0000_000D, 0x1800_0180_0010_0002] := ⟨by decide, by decide⟩

end Sys2Proof.Tests
end

section
/-! PROOFS. The program store and the data memory (spec/20_memory.md): what a step can change of them, and what
`MemRead` and `MemWrite` do. -/

namespace Sys2Proof.Machine

/-! ### What a step keeps and what it changes -/

/-- No instruction changes the program or the parameters. -/
theorem Effect.keeps_prog_cfg {i : Instr} {s t : State} (h : Effect i s t) : t.prog = s.prog ∧ t.cfg = s.cfg := by
  cases h with
  | reg _ _ _ ht | store _ _ _ _ ht | flags _ _ ht | jump _ _ ht | halt _ ht | fault _ _ _ ht
  | answer _ _ _ _ _ ht | storageFault _ _ _ ht => rw [ht]; exact ⟨rfl, rfl⟩

/-- An instruction that changes the memory completes, and is a store or a storage opcode. -/
theorem Effect.mem_eq_or_writes {i : Instr} {s t : State} (h : Effect i s t) :
    t.mem = s.mem ∨
      (t.status = s.status ∧ (i.opcode = .str ∨ i.opcode = .sti ∨ i.opcode.isStorage = true)) := by
  cases h with
  | store _ _ hi _ ht =>
    rw [ht]
    exact .inr ⟨rfl, hi.imp_right .inl⟩
  | answer _ _ _ _ hi ht =>
    rw [ht]
    exact .inr ⟨rfl, .inr (.inr hi)⟩
  | reg _ _ _ ht | flags _ _ ht | jump _ _ ht | halt _ ht | fault _ _ _ ht | storageFault _ _ _ ht =>
    rw [ht]
    exact .inl rfl

/-- No step changes the program or the parameters (R8, R65). -/
theorem step_keeps_prog_cfg {s t : State} (h : step s = .next t) : t.prog = s.prog ∧ t.cfg = s.cfg := by
  rcases step_next h with ⟨-, rfl⟩ | ⟨w, f, -, -, -, rfl⟩ | ⟨i, u, -, hu, rfl⟩
  · exact ⟨rfl, rfl⟩
  · exact ⟨rfl, rfl⟩
  · simpa using (exec_next hu).keeps_prog_cfg

/-- The end-of-program test leads to no fault. -/
theorem endOfTick_not_faulted {s : State} (h : s.status = .ready) : (endOfTick s).status ≠ .faulted := by
  rw [endOfTick_status, h]
  split <;> decide

/-- A step that changes the memory does not fault, and runs a store or a storage opcode (R52). -/
theorem step_mem_eq_or_writes {s t : State} (h : step s = .next t) :
    t.mem = s.mem ∨ (t.status ≠ .faulted ∧
      ∃ i, Runs s i ∧ (i.opcode = .str ∨ i.opcode = .sti ∨ i.opcode.isStorage = true)) := by
  rcases step_next h with ⟨-, rfl⟩ | ⟨w, f, -, -, -, rfl⟩ | ⟨i, u, hi, hu, rfl⟩
  · exact .inl rfl
  · exact .inl rfl
  · rcases (exec_next hu).mem_eq_or_writes with hm | ⟨hs, hop⟩
    · exact .inl (by rw [endOfTick_mem, hm])
    · exact .inr ⟨endOfTick_not_faulted (hs.trans hi.1), i, hi, hop⟩

/-- Settles O36: no step writes the program store; `load` replaces it and sets `ip` to 0. -/
theorem programChangesOnlyByLoad : Obligations.ProgramChangesOnlyByLoad :=
  ⟨fun _ _ h => (step_keeps_prog_cfg h).1, fun _ _ => ⟨rfl, rfl⟩⟩

/-- Settles O37, from the inversion of the step: of its cases only a completed store and a committed storage answer
write the memory. -/
theorem memoryChangesOnlyByStores : Obligations.MemoryChangesOnlyByStores := by
  refine ⟨fun _ _ => rfl, fun _ _ _ => rfl, fun s t h => ⟨?_, fun a ha => ?_⟩⟩
  · rw [(step_keeps_prog_cfg h).2]
  · exact (step_mem_eq_or_writes h).resolve_left fun hm => ha (by rw [hm])

/-! ### The two memory transactions -/

/-- The model's bounds test computes R55's. -/
theorem inBounds_iff (c : Config) (a : Word) : inBounds c a.toNat 8 = true ↔ InBounds c a := by
  unfold inBounds InBounds
  cases c.boundStrict <;> simp

theorem inBounds_eq_false {c : Config} {a : Word} (h : ¬ InBounds c a) : inBounds c a.toNat 8 = false := by
  rwa [← inBounds_iff, Bool.not_eq_true] at h

/-- Replacing the memory touches nothing of the engine. -/
theorem sameEngine_setMem (s : State) (m : Memory) : SameEngine s (setMem m s) :=
  ⟨rfl, rfl, rfl, rfl, rfl, rfl, rfl⟩

/-- Taking a fault presents no request. -/
theorem samePort_raise (s : State) (c : FaultCause) (info : Word) : SamePort s (raise c info s) := ⟨rfl, rfl⟩

/-- A load out of bounds raises `OutOfBounds(a)` and does nothing else (R56, R233). -/
theorem loadFrom_outOfBounds {s : State} {a : Word} (ra : Reg) (h : ¬ InBounds s.cfg a) :
    loadFrom ra a s = .next (raise .outOfBounds a s) := by
  simp [loadFrom_eq, inBounds_eq_false h]

/-- A store out of bounds raises `OutOfBounds(a)` and does nothing else (R57, R233). -/
theorem storeTo_outOfBounds {s : State} {a : Word} (ra : Reg) (h : ¬ InBounds s.cfg a) :
    storeTo ra a s = .next (raise .outOfBounds a s) := by
  simp [storeTo_eq, inBounds_eq_false h]

/-- Settles O47: the write in bounds is `writeWord`, whose bytes the memory laws give; out of bounds nothing is
written. -/
theorem memWriteAllOrNothing : Obligations.MemWriteAllOrNothing := by
  refine fun s a v => ⟨fun hm hb => ?_, fun hb => ⟨memWrite_outOfBounds v (inBounds_eq_false hb), fun ra => ?_⟩⟩
  · exact ⟨_, memWrite_inBounds v ((inBounds_iff _ a).mpr hb),
      Memory.readByte_writeWord_inside _ hm _ v, Memory.readByte_writeWord_outside _ hm _ v,
      fun _ => rfl, rfl, rfl, sameEngine_setMem s _⟩
  · exact ⟨_, storeTo_outOfBounds ra hb, faultEffect_raise s _ a, samePort_raise s _ a⟩

/-- Settles O48: the read in bounds is `readWord`, whose value the memory laws give; out of bounds a load faults. -/
theorem memReadAssemblesBytes : Obligations.MemReadAssemblesBytes := by
  refine fun s a => ⟨fun hb => ?_, fun hb => ⟨memRead_outOfBounds (inBounds_eq_false hb), fun ra => ?_⟩⟩
  · exact ⟨_, memRead_inBounds ((inBounds_iff _ a).mpr hb), Memory.readWord_toNat _ s.mem _⟩
  · exact ⟨_, loadFrom_outOfBounds ra hb, faultEffect_raise s _ a, samePort_raise s _ a⟩

end Sys2Proof.Machine
end

section
/-! PROOFS. The undefined opcodes (spec/30_encoding.md R94): which words decode to the fault, under any `ORD` and under
the default one, and the tick that fetches such a word. -/

namespace Sys2Proof

/-! ### The words that decode to `UndefinedOpcode` -/

/-- The decoder answers `UndefinedOpcode` exactly where no opcode has the ordinal in the top 6 bits. -/
theorem decode_eq_undefinedOpcode_iff (o : Ordinals) (w : Word) :
    decode o w = .fault (.undefinedOpcode w) ↔ ∀ m, ordinal o m ≠ opcField w := by
  rw [← opcodeOf_eq_none]
  unfold decode
  cases opcodeOf o (opcField w) with
  | none => simp
  | some m => cases h : decodeOperands m (opndField w) <;> simp [h]

/-- The top 6 bits of a word, as a number (R80). -/
theorem opcField_toNat (w : Word) : (opcField w).toNat = w.toNat / 2 ^ 58 := by
  have hlt : w.toNat / 2 ^ 58 < 2 ^ 6 := by omega
  rw [opcField, BitVec.extractLsb'_toNat, Nat.shiftRight_eq_div_pow, Nat.mod_eq_of_lt hlt]

/-! ### The ordinals of the default `ORD` -/

/-- Every row of R90's table names an opcode. -/
theorem Opcode.index_surjective (k : Fin 21) : ∃ m : Opcode, m.index = k :=
  ⟨Opcode.all[k]'k.isLt, by revert k; decide⟩

/-- The default `ORD` numbers the opcodes by their rows (decision D1). -/
theorem ordinal_defaultOrd_toNat (m : Opcode) : (ordinal defaultOrd m).toNat = m.index.val := by
  cases m <;> rfl

/-- Under the default `ORD` the undefined ordinals are those from 21 up. -/
theorem defaultOrd_undefined_iff (opc : BitVec 6) : (∀ m, ordinal defaultOrd m ≠ opc) ↔ 21 ≤ opc.toNat := by
  constructor
  · intro hm
    by_contra hlt
    obtain ⟨m, hi⟩ := Opcode.index_surjective ⟨opc.toNat, by omega⟩
    refine hm m (BitVec.eq_of_toNat_eq ?_)
    rw [ordinal_defaultOrd_toNat, hi]
  · rintro hge m rfl
    rw [ordinal_defaultOrd_toNat] at hge
    exact absurd m.index.isLt (by omega)

/-- Under the default `ORD` the words from `0x5400_0000_0000_0000 = 21 * 2 ^ 58` up are the undefined ones. -/
theorem decode_defaultOrd_undefinedOpcode_iff (w : Word) :
    0x5400000000000000 ≤ w.toNat ↔ decode defaultOrd w = .fault (.undefinedOpcode w) := by
  rw [decode_eq_undefinedOpcode_iff, defaultOrd_undefined_iff, opcField_toNat]
  omega

/-- Settles O3: the decoder fails the opcode lookup exactly on these words, and the tick raises what it answers. -/
theorem undefinedOpcodeWordsFault : Obligations.UndefinedOpcodeWordsFault := by
  refine ⟨fun o w => (decode_eq_undefinedOpcode_iff o w).mpr, decode_defaultOrd_undefinedOpcode_iff, ?_⟩
  intro s w hready hfetch hundef
  have hdecode := (decode_eq_undefinedOpcode_iff s.cfg.ord w).mpr hundef
  exact ⟨_, Machine.step_decodeFault hready hfetch hdecode, Machine.faultEffect_raise s _ w,
    Machine.samePort_raise s _ w⟩

end Sys2Proof
end

section
/-! PROOFS. The execution cycle (spec/40_execution_cycle.md): the tick that runs an instruction, sequencing, the tick that
faults, the statuses nothing but `load` and reset leaves, and `load`. -/

namespace Sys2Proof.Machine

/-! ### The tick that runs an instruction -/

/-- The end-of-program test leaves a faulted state alone (R132). -/
theorem endOfTick_of_faulted {s : State} (h : s.status = .faulted) : endOfTick s = s := by
  simp [endOfTick, h]

/-- The end-of-program test neither raises a fault nor clears one. -/
theorem endOfTick_faulted_iff (s : State) : (endOfTick s).status = .faulted ↔ s.status = .faulted := by
  rw [endOfTick_status]
  split
  · rename_i hend
    simp [hend.1]
  · rfl

/-- Where the instruction ends in a state, the tick ends in it too, after the end-of-program test (R126). -/
theorem step_of_exec_next {s u : State} {i : Instr} (hi : Runs s i) (hu : exec i s = .next u) :
    step s = .next (endOfTick u) := by
  rw [step_runs hi, hu]
  rfl

/-- A tick that runs `i` and ends in a state comes from an `exec i` that does. -/
theorem exec_next_of_step {s t : State} {i : Instr} (hi : Runs s i) (h : step s = .next t) :
    ∃ u, exec i s = .next u ∧ t = endOfTick u := by
  rw [step_runs hi] at h
  cases hu : exec i s with
  | next u => rw [hu] at h; cases h; exact ⟨u, rfl, rfl⟩
  | fault f => rw [hu] at h; cases h
  | refused r => rw [hu] at h; cases h

/-! ### Sequencing and faults -/

/-- An instruction takes a fault, or it does not fault and, unless it is a jump, advances `ip` by one (R130, R133). -/
theorem Effect.fault_or_advance {i : Instr} {s t : State} (h : Effect i s t) :
    (∃ c info, FaultEffect s t c info) ∨
      ((t.status = s.status ∨ t.status = .halted) ∧
        (i.opcode ≠ .jmpr → i.opcode ≠ .jmpi → t.ip = s.ip + 1)) := by
  cases h with
  | fault c info _ ht =>
    rw [ht]
    exact .inl ⟨c, info, faultEffect_raise s c info⟩
  | storageFault q code _ ht =>
    rw [ht]
    exact .inl ⟨_, code, faultEffect_raise_presentRequest s q code⟩
  | jump _ hi ht =>
    rw [ht]
    exact .inr ⟨.inl rfl, fun hr himm => (hi.elim hr himm).elim⟩
  | halt _ ht =>
    rw [ht]
    exact .inr ⟨.inr rfl, fun _ _ => rfl⟩
  | reg _ _ _ ht | store _ _ _ _ ht | flags _ _ ht | answer _ _ _ _ _ ht =>
    rw [ht]
    exact .inr ⟨.inl rfl, fun _ _ => rfl⟩

/-- In Ready, an instruction takes a fault, or ends in a state that is not Faulted and, unless it is a jump, advances
`ip` by one. -/
theorem exec_fault_or_advance {i : Instr} {s u : State} (hready : s.status = .ready) (hu : exec i s = .next u) :
    (∃ c info, FaultEffect s u c info) ∨
      (u.status ≠ .faulted ∧ (i.opcode ≠ .jmpr → i.opcode ≠ .jmpi → u.ip = s.ip + 1)) := by
  refine (exec_next hu).fault_or_advance.imp_right (And.imp_left ?_)
  rintro (hs | hs) <;> simp [hs, hready]

/-- Zero extension keeps the value of the immediate (R93). -/
theorem zext58_toNat (imm : Imm58) : (zext58 imm).toNat = imm.toNat :=
  BitVec.toNat_setWidth_of_le (by decide)

/-- Settles O31: a fault holds `ip`, a jump is `setIp` of its target, and every other effect of an instruction advances
`ip`; the end-of-program test does not move it. -/
theorem sequencingOfEveryInstruction : Obligations.SequencingOfEveryInstruction := by
  intro s t i hi hstep
  obtain ⟨u, hu, rfl⟩ := exec_next_of_step hi hstep
  rw [endOfTick_ip, Ne, endOfTick_faulted_iff]
  rcases exec_fault_or_advance hi.1 hu with ⟨c, info, hf⟩ | ⟨hne, hadvance⟩
  · exact ⟨fun _ => hf.ip, fun hne => absurd hf.status hne⟩
  · refine ⟨fun hfaulted => absurd hfaulted hne, fun _ => ⟨?_, ?_, hadvance⟩⟩
    · rintro ra rfl
      cases hu
      rfl
    · rintro imm rfl
      cases hu
      exact zext58_toNat imm

/-! ### The tick that faults -/

/-- After a fault `ip` still indexes the same word of the same program (R133). -/
theorem FaultEffect.fetch_eq {s t : State} {c : FaultCause} {info : Word} (h : FaultEffect s t c info) :
    fetch t = fetch s := by
  rw [fetch, fetch, h.ip, h.prog]

/-- A tick from Ready that ends Faulted has taken a fault: of the decoder, or of the instruction. -/
theorem faultEffect_of_step_faulted {s t : State} (hready : s.status = .ready) (h : step s = .next t)
    (ht : t.status = .faulted) : ∃ c info, FaultEffect s t c info := by
  rcases step_next h with ⟨hnot, -⟩ | ⟨w, f, -, -, -, rfl⟩ | ⟨i, u, -, hu, rfl⟩
  · exact absurd hready hnot
  · exact ⟨_, w, faultEffect_raise s _ w⟩
  · have hfaulted : u.status = .faulted := (endOfTick_faulted_iff u).mp ht
    rw [endOfTick_of_faulted hfaulted]
    exact (exec_fault_or_advance hready hu).resolve_right fun hn => hn.1 hfaulted

/-- Settles O34, from the inversion of the step; conversely a decode fault and a fault of the instruction both end the
tick, which the end-of-program test leaves Faulted. -/
theorem faultedTickChangesOnlyFaultRecord : Obligations.FaultedTickChangesOnlyFaultRecord := by
  refine ⟨fun s t hready h ht => ?_, fun s w f hready hw hf => ?_, fun s i u hi hu hfaulted => ?_⟩
  · obtain ⟨c, info, hf⟩ := faultEffect_of_step_faulted hready h ht
    exact ⟨c, info, hf, hf.fetch_eq⟩
  · exact ⟨_, step_decodeFault hready hw hf, rfl⟩
  · rw [step_of_exec_next hi hu, endOfTick_of_faulted hfaulted]

/-! ### The terminal statuses -/

/-- A state that a step leaves unchanged is left unchanged by every number of steps. -/
theorem run_of_step_self {M : Host.Core} {s : M.State} (h : M.step s = .next s) (n : Nat) : M.run n s = .next s := by
  induction n with
  | zero => rfl
  | succ n ih => rw [Host.Core.run, h]; exact ih

/-- Settles O35: the step does nothing outside Ready, and so no number of steps does; `load` and reset write the status
outright. -/
theorem haltedAndFaultedAreTerminal : Obligations.HaltedAndFaultedAreTerminal := by
  intro s hs
  have hnot : s.status ≠ .ready := by
    rcases hs with h | h <;> simp [h]
  refine ⟨run_of_step_self (M := core) (step_of_not_ready hnot), fun p hp => ?_, fun _ => rfl⟩
  have hlen : p.length ≥ 1 := List.length_pos_iff.mpr hp
  rw [load_status, if_pos hlen]

/-! ### `load`, and the whole tick -/

/-- Settles O2: the registers by the law of `load`, every other field as `load` writes or keeps it. -/
theorem loadInstallsProgramAndZeroesState : Obligations.LoadInstallsProgramAndZeroesState :=
  fun p s => ⟨rfl, rfl, readReg_load s p, rfl, rfl, rfl, rfl, rfl, fun _ => rfl, rfl, rfl, rfl⟩

/-- Where the instruction stops, the tick stops with it (R126). -/
theorem step_of_exec_fault {s : State} {i : Instr} {f : Fault} (hi : Runs s i) (hf : exec i s = .fault f) :
    step s = .fault f := by
  rw [step_runs hi, hf]
  rfl

/-- The end-of-program test after an instruction compares `ip` with the length of the program it was fetched from, since no
instruction changes the program (R132). -/
theorem endOfTick_of_exec {s u : State} {i : Instr} (hu : exec i s = .next u) :
    endOfTick u = if u.status = .ready ∧ s.prog.length ≤ u.ip.toNat then setStatus .halted u else u := by
  rw [endOfTick, progLen_eq, (exec_next hu).keeps_prog_cfg.1]

/-- A tick from Ready whose word does not decode takes the fault the decoder names, with the word as its information. -/
theorem step_takes_decodeFault {s : State} {w : Word} {f : DecodeFault} (hready : s.status = .ready)
    (hw : fetch s = some w) (hf : decode s.cfg.ord w = .fault f) :
    ∃ t, step s = .next t ∧ FaultEffect s t (causeOf f) w ∧ SamePort s t :=
  ⟨_, step_decodeFault hready hw hf, faultEffect_raise s _ w, samePort_raise s _ w⟩

/-- Settles O30: the fetched word decodes, and the tick is `exec` followed by the end-of-program test, or it does not, and
the tick takes the decoder's fault. -/
theorem stepRunsDecodedInstruction : Obligations.StepRunsDecodedInstruction := by
  refine fun s w hready hw => ⟨fun i hdecode => ?_, step_takes_decodeFault hready hw, step_takes_decodeFault hready hw⟩
  have hi : Runs s i := ⟨hready, w, hw, hdecode⟩
  refine ⟨fun u hu => ?_, fun f => step_of_exec_fault hi, (exec_stop i s).1⟩
  rw [step_of_exec_next hi hu, endOfTick_of_exec hu]

end Sys2Proof.Machine
end

section
/-! PROOFS. LDR, LDI, STR, STI (spec/42_load_store.md): which words of shapes `RR` and `RI` decode, and what a load and a
store do on either side of the bounds test. -/

namespace Sys2Proof

/-! ### The words of shapes `RR` and `RI` -/

/-- A word whose opcode has an ordinal and whose operand field decodes is an instruction. -/
theorem decode_eq_instr {o : Ordinals} (ho : Ordinals.wf o) {m : Opcode} {f : OperandField} {i : Instr}
    (h : decodeOperands m f = some i) : decode o (ordinal o m ++ f) = .instr i := by
  simp only [decode_append ho, h]

/-- A word whose opcode has an ordinal and whose operand field does not decode is illegal in its operands (R95). -/
theorem illegal_of_decodeOperands {o : Ordinals} (ho : Ordinals.wf o) {m : Opcode} {f : OperandField}
    (h : decodeOperands m f = none) : Machine.Illegal o (ordinal o m ++ f) := by
  simp only [Machine.Illegal, decode_append ho, h]

/-- Both register fields of shape `RR` name a register. -/
theorem decodeRR_of_lt (mk : Reg → Reg → Instr) {ra : BitVec 4} {rb : BitVec 54} (ha : ra.toNat < 12)
    (hb : rb.toNat < 12) : decodeRR mk (ra ++ rb) = some (mk ⟨ra.toNat, ha⟩ ⟨rb.toNat, hb⟩) := by
  simp [decodeRR, regOf?_of_lt ha, regOf?_of_lt hb]

/-- A register field of shape `RR` names no register (R92). -/
theorem decodeRR_of_ge (mk : Reg → Reg → Instr) {ra : BitVec 4} {rb : BitVec 54}
    (h : 12 ≤ ra.toNat ∨ 12 ≤ rb.toNat) : decodeRR mk (ra ++ rb) = none := by
  rcases h with ha | hb
  · simp [decodeRR, regOf?_of_ge ha]
  · simp [decodeRR, regOf?_of_ge hb]

/-- The register field of shape `RI` names a register; the immediate is taken as it is (R93). -/
theorem decodeRI_of_lt (mk : Reg → Imm54 → Instr) {ra : BitVec 4} (imm : BitVec 54) (ha : ra.toNat < 12) :
    decodeRI mk (ra ++ imm) = some (mk ⟨ra.toNat, ha⟩ imm) := by
  simp [decodeRI, regOf?_of_lt ha]

/-- The register field of shape `RI` names no register (R92). -/
theorem decodeRI_of_ge (mk : Reg → Imm54 → Instr) {ra : BitVec 4} (imm : BitVec 54) (ha : 12 ≤ ra.toNat) :
    decodeRI mk (ra ++ imm) = none := by
  simp [decodeRI, regOf?_of_ge ha]

namespace Machine

/-- An opcode whose operand field is cut as shape `RR` has the words of that shape (R84, R92). -/
theorem wordsRR_of_decodeRR {m : Opcode} {n : BitVec 6} {mk : Reg → Reg → Instr} (hn : ordinal defaultOrd m = n)
    (hm : ∀ f, decodeOperands m f = decodeRR mk f) : WordsRR m n mk := by
  refine ⟨hn, fun o ho ra rb => ?_⟩
  rw [word4x54_eq]
  exact ⟨fun ha hb => decode_eq_instr ho ((hm _).trans (decodeRR_of_lt mk ha hb)),
    fun h => illegal_of_decodeOperands ho ((hm _).trans (decodeRR_of_ge mk h))⟩

/-- An opcode whose operand field is cut as shape `RI` has the words of that shape (R85, R92). -/
theorem wordsRI_of_decodeRI {m : Opcode} {n : BitVec 6} {mk : Reg → Imm54 → Instr} (hn : ordinal defaultOrd m = n)
    (hm : ∀ f, decodeOperands m f = decodeRI mk f) : WordsRI m n mk := by
  refine ⟨hn, fun o ho ra imm => ?_⟩
  rw [word4x54_eq]
  exact ⟨fun ha => decode_eq_instr ho ((hm _).trans (decodeRI_of_lt mk imm ha)),
    fun h => illegal_of_decodeOperands ho ((hm _).trans (decodeRI_of_ge mk imm h))⟩

/-! ### Loads and stores in bounds, and both sides together -/

/-- The effective address of the immediate forms, by its value (R93, R160). -/
theorem eaImm_eq_ofNat (imm : Imm54) : eaImm imm = BitVec.ofNat 64 imm.toNat :=
  (BitVec.ofNat_toNat 64 imm).symm

/-- A load in bounds delivers the word at `ea` (R56). -/
theorem loadFrom_inBounds {s : State} {ea : Word} (ra : Reg) (h : InBounds s.cfg ea) :
    loadFrom ra ea s = .next (advance (writeReg ra (s.mem.readWord s.cfg.byteOrder ea.toNat) s)) := by
  rw [loadFrom_eq, if_pos ((inBounds_iff _ ea).mpr h)]

/-- A store in bounds writes the word at `ea` (R57). -/
theorem storeTo_inBounds {s : State} {ea : Word} (ra : Reg) (h : InBounds s.cfg ea) :
    storeTo ra ea s = .next (advance (setMem (s.mem.writeWord s.cfg.byteOrder ea.toNat (readReg s ra)) s)) := by
  rw [storeTo_eq, if_pos ((inBounds_iff _ ea).mpr h)]

/-- An instruction that is a load from `ea` follows the rule of loads. -/
theorem loadRule_of_exec {i : Instr} {ra : Reg} {ea : Word} {s : State} (h : exec i s = loadFrom ra ea s) :
    LoadRule i ra ea s where
  inside hb := ⟨_, _, h.trans (loadFrom_inBounds ra hb), regEffect_writeReg s ra _,
    Memory.readWord_toNat s.cfg.byteOrder s.mem ea.toNat⟩
  outside hb := ⟨_, h.trans (loadFrom_outOfBounds ra hb), faultEffect_raise s _ ea, samePort_raise s _ ea⟩

/-- An instruction that is a store to `ea` follows the rule of stores. -/
theorem storeRule_of_exec {i : Instr} {ra : Reg} {ea : Word} {s : State} (h : exec i s = storeTo ra ea s) :
    StoreRule i ra ea s where
  inside hm hb := ⟨_, h.trans (storeTo_inBounds ra hb), storeEffect_writeWord s hm ea _⟩
  outside hb := ⟨_, h.trans (storeTo_outOfBounds ra hb), faultEffect_raise s _ ea, samePort_raise s _ ea⟩

/-! ### The four instructions -/

/-- Settles O10: `exec` of LDR is the load from `x[rb]`, read before `x[ra]` is written. -/
theorem ldrLoadsFromRegisterAddress : Obligations.LdrLoadsFromRegisterAddress :=
  ⟨wordsRR_of_decodeRR rfl fun _ => rfl, fun _ _ _ => loadRule_of_exec rfl⟩

/-- Settles O11: `exec` of LDI is the load from its effective address, the zero-extended immediate. -/
theorem ldiLoadsFromImmediateAddress : Obligations.LdiLoadsFromImmediateAddress := by
  refine ⟨wordsRI_of_decodeRI rfl fun _ => rfl, fun ra imm s => ?_⟩
  rw [← eaImm_eq_ofNat]
  exact loadRule_of_exec rfl

/-- Settles O12: `exec` of STR is the store to `x[rb]`. -/
theorem strStoresToRegisterAddress : Obligations.StrStoresToRegisterAddress :=
  ⟨wordsRR_of_decodeRR rfl fun _ => rfl, fun _ _ _ => storeRule_of_exec rfl⟩

/-- Settles O13: `exec` of STI is the store to its effective address, the zero-extended immediate. -/
theorem stiStoresToImmediateAddress : Obligations.StiStoresToImmediateAddress := by
  refine ⟨wordsRI_of_decodeRI rfl fun _ => rfl, fun ra imm s => ?_⟩
  rw [← eaImm_eq_ofNat]
  exact storeRule_of_exec rfl

end Machine

end Sys2Proof
end

section
/-! PROOFS. ADDR (spec/43_arithmetic.md): which words of shape `RRR` decode, what writing a result does, and the sum. -/

namespace Sys2Proof

/-! ### The words of shape `RRR` -/

/-- Shape `RRR` reads each of its three fields as a register, and all three must name one (R88, R92). -/
theorem decodeRRR_append (mk : Reg → Reg → Reg → Instr) (ra rb : BitVec 19) (rc : BitVec 20) :
    decodeRRR mk (ra ++ (rb ++ rc)) =
      (regOf? ra).bind fun a => (regOf? rb).bind fun b => (regOf? rc).map fun c => mk a b c := by
  rw [decodeRRR, field57to39_append, field38to20_append, field19to0_append]
  cases regOf? ra <;> cases regOf? rb <;> cases regOf? rc <;> rfl

/-- All three register fields of shape `RRR` name a register. -/
theorem decodeRRR_of_lt (mk : Reg → Reg → Reg → Instr) {ra rb : BitVec 19} {rc : BitVec 20} (ha : ra.toNat < 12)
    (hb : rb.toNat < 12) (hc : rc.toNat < 12) :
    decodeRRR mk (ra ++ (rb ++ rc)) = some (mk ⟨ra.toNat, ha⟩ ⟨rb.toNat, hb⟩ ⟨rc.toNat, hc⟩) := by
  rw [decodeRRR_append, regOf?_of_lt ha, regOf?_of_lt hb, regOf?_of_lt hc]
  rfl

/-- A register field of shape `RRR` names no register (R92). -/
theorem decodeRRR_of_ge (mk : Reg → Reg → Reg → Instr) {ra rb : BitVec 19} {rc : BitVec 20}
    (h : 12 ≤ ra.toNat ∨ 12 ≤ rb.toNat ∨ 12 ≤ rc.toNat) : decodeRRR mk (ra ++ (rb ++ rc)) = none := by
  rw [decodeRRR_append]
  rcases h with ha | hb | hc
  · simp [regOf?_of_ge ha]
  · simp [regOf?_of_ge hb]
  · simp [regOf?_of_ge hc]

namespace Machine

/-- An opcode whose operand field is cut as shape `RRR` has the words of that shape (R88, R92). -/
theorem wordsRRR_of_decodeRRR {m : Opcode} {n : BitVec 6} {mk : Reg → Reg → Reg → Instr}
    (hn : ordinal defaultOrd m = n) (hm : ∀ f, decodeOperands m f = decodeRRR mk f) : WordsRRR m n mk := by
  refine ⟨hn, fun o ho ra rb rc => ?_⟩
  rw [word19x19x20_eq]
  exact ⟨fun ha hb hc => decode_eq_instr ho ((hm _).trans (decodeRRR_of_lt mk ha hb hc)),
    fun h => illegal_of_decodeOperands ho ((hm _).trans (decodeRRR_of_ge mk h))⟩

/-! ### The sum -/

/-- An instruction that writes the result `v` completes, and changes `x[ra]` and `ip` alone (R170). -/
theorem regEffect_of_exec_writeResult {i : Instr} {s : State} {ra : Reg} {v : Word}
    (h : exec i s = writeResult ra v s) : ∃ t, exec i s = .next t ∧ RegEffect s t ra v :=
  ⟨_, h, regEffect_writeReg s ra v⟩

/-- The sum by its value (R171). -/
theorem addWrap_toNat (a b : Word) : (addWrap a b).toNat = (a.toNat + b.toNat) % 2 ^ 64 :=
  BitVec.toNat_ofNat _ 64

/-- Settles O14: `exec` of ADDR writes the wrapped sum, which is read before `x[ra]` is written. -/
theorem addrAddsModulo : Obligations.AddrAddsModulo := by
  refine ⟨wordsRRR_of_decodeRRR rfl fun _ => rfl, fun ra rb rc s => ?_⟩
  obtain ⟨t, ht, heffect⟩ := regEffect_of_exec_writeResult (i := .addr ra rb rc) (s := s) rfl
  exact ⟨t, _, ht, heffect, addWrap_toNat _ _⟩

end Machine

end Sys2Proof
end

section
/-! PROOFS. The round trip of encoder and decoder (spec/30_encoding.md R96, R98) and the words that are illegal in their
operands (R95). -/

namespace Sys2Proof

/-! ### Decoding an encoded instruction -/

/-- The operand field of every instruction decodes to the instruction, shape by shape (R84 to R89). -/
theorem decodeOperands_operands (i : Instr) : decodeOperands i.opcode i.operands = some i := by
  cases i with
  | movr ra rb | ldr ra rb | str ra rb | eq ra rb | and ra rb | lt ra rb => exact Laws.decodeRR_fieldsRR _ ra rb
  | movi ra imm | ldi ra imm | sti ra imm => exact Laws.decodeRI_fieldsRI _ ra imm
  | addr ra rb rc | subr ra rb rc | mulr ra rb rc | divr ra rb rc => exact Laws.decodeRRR_fieldsRRR _ ra rb rc
  | jmpr ra | not ra => exact Laws.decodeR_fieldsR _ ra
  | jmpi | sld | sst | spub | ssub => rfl
  | halt => exact Laws.OperandsRoundTrip.halt.2

/-- Decoding inverts encoding (R98). -/
theorem decode_encode {o : Ordinals} (ho : Ordinals.wf o) (i : Instr) : decode o (encode o i) = .instr i :=
  decode_eq_instr ho (decodeOperands_operands i)

/-- Settles O5: the opcode is found by its ordinal, and the operand field of each shape reads back. -/
theorem decodeOfEncodeIsIdentity : Obligations.DecodeOfEncodeIsIdentity := fun _ ho i => decode_encode ho i

/-! ### Encoding a decoded instruction -/

/-- A word that decodes has the ordinal and the operand field of what it decodes to (R96). -/
theorem encode_of_decode {o : Ordinals} {w : Word} {i : Instr} (h : decode o w = .instr i) : encode o i = w := by
  obtain ⟨m, hordinal, hfield⟩ := decode_instr h
  obtain ⟨hop, hoperands⟩ := decodeOperands_some hfield
  rw [encode, hop, hordinal, hoperands, word_eq_fields]

/-- Settles O6: any two words that decode to `i` are both the encoding of `i`. -/
theorem encodeOfDecodeIsIdentity : Obligations.EncodeOfDecodeIsIdentity := fun _ _ _ h =>
  ⟨encode_of_decode h, fun _ h' => (encode_of_decode h').symm.trans (encode_of_decode h)⟩

/-- Settles O7: nine closed words. -/
theorem spelledWordsDecode : Obligations.SpelledWordsDecode := by
  unfold Obligations.SpelledWordsDecode
  decide

/-! ### Illegal operands -/

/-- A word whose top 6 bits are the ordinal of `m` is illegal in its operands exactly when its operand field fails the check
of `m`'s shape (R95). -/
theorem illegal_iff_not_wellFormed {o : Ordinals} (ho : Ordinals.wf o) {w : Word} {m : Opcode}
    (hm : ordinal o m = opcField w) :
    RawInstr.wellFormed ⟨m, opndField w⟩ = false ↔ Machine.Illegal o w := by
  have hdecode := decode_append ho m (opndField w)
  rw [hm, word_eq_fields] at hdecode
  rw [← decodeOperands_isSome, Machine.Illegal, hdecode]
  cases decodeOperands m (opndField w) <;> simp

/-- Settles O4: the check of R95 is what the decoder computes, and the tick raises what the decoder answers. -/
theorem illegalOperandWordsFault : Obligations.IllegalOperandWordsFault := by
  refine ⟨fun o w m ho hm => illegal_iff_not_wellFormed ho hm, fun s w m hcfg hready hfetch hm hbad => ?_⟩
  exact Machine.step_takes_decodeFault hready hfetch ((illegal_iff_not_wellFormed hcfg hm).mp hbad)

end Sys2Proof
end

section
/-! PROOFS. The invariant of the machine (spec/10_state.md R31, R33, R35): construction, `load`, reset and every step
meet it, and in a state that meets it the only step without a next state is an unanswered storage call. -/

namespace Sys2Proof.Machine

/-! ### Construction, reset and `load` -/

/-- A constructed machine meets the invariant (R39). -/
theorem machineInv_construct {c : Config} (hc : c.wf) : MachineInv (State.construct c) where
  memWf := memWf_construct c
  memWithin := memWithin_construct c
  readyIp hready := by cases hready
  faultRecorded := by simp [State.construct]
  fcauseLegal := Nat.zero_le 5
  finfoClear _ := rfl
  progLenBound := Nat.two_pow_pos 64
  idleEmpty _ := ⟨rfl, rfl⟩
  cfgWf := hc

/-- Reset is construction with another `MEM_SIZE`, up to the storage port, of which the invariant does not speak
(R260). -/
theorem machineInv_hostReset {s : State} (h : s.cfg.wf) (n : Nat) : MachineInv (hostReset n s) :=
  { machineInv_construct (c := { s.cfg with memSize := n }) h with }

/-- After `load` the program is the new one, at its word 0, unless it is empty (R122, R124). -/
theorem machineInv_load {s : State} (h : MachineInv s) {p : List Word} (hp : programWf p) : MachineInv (load p s) where
  memWf := h.memWf
  memWithin := h.memWithin
  readyIp hready := by
    rw [load_status] at hready
    split at hready
    · assumption
    · cases hready
  faultRecorded := by
    rw [load_status]
    split <;> simp
  fcauseLegal := Nat.zero_le 5
  finfoClear _ := rfl
  progLenBound := hp
  idleEmpty hidle := by
    rw [load_status] at hidle
    split at hidle <;> cases hidle
  cfgWf := h.cfgWf

/-- Settles O1: construction gives these values outright, and reset in any state is a construction. -/
theorem constructionLeavesEverythingZero : Obligations.ConstructionLeavesEverythingZero := by
  rintro c n s t (rfl | rfl)
  · exact ⟨readReg_construct c, rfl, rfl, rfl, rfl, rfl, rfl, fun _ => rfl, rfl, rfl⟩
  · exact ⟨readReg_construct { s.cfg with memSize := n }, rfl, rfl, rfl, rfl, rfl, rfl, fun _ => rfl, rfl, rfl⟩

/-- Settles O42: construction asks only for an injective `ORD`, which the default one is. -/
theorem constructionMeetsInvariant : Obligations.ConstructionMeetsInvariant :=
  ⟨fun _ => machineInv_construct, machineInv_construct (by decide)⟩

/-- Settles O44: neither operation leaves anything of the old program, and neither changes `ORD`. -/
theorem loadAndResetKeepInvariant : Obligations.LoadAndResetKeepInvariant := fun _ h =>
  ⟨fun _ => machineInv_load h, machineInv_hostReset h.cfgWf⟩

/-! ### Inside a tick -/

/-- What an instruction keeps of the invariant, from the Ready state it starts in to the end-of-program test: all of it but
`Ready implies ip < PROG_LEN`, which that test restores (R132). -/
structure TickInv (s : State) : Prop where
  memWf : Memory.wf s.mem
  memWithin : Memory.within s.cfg.memSize s.mem
  faultRecorded : s.fcause ≠ 0 ↔ s.status = .faulted
  fcauseLegal : s.fcause.toNat ≤ 5
  finfoClear : s.fcause = 0 → s.finfo = 0
  progLenBound : programWf s.prog
  notIdle : s.status ≠ .idle
  cfgWf : s.cfg.wf

theorem MachineInv.tickInv {s : State} (h : MachineInv s) (hready : s.status = .ready) : TickInv s :=
  { h with notIdle := by simp [hready] }

/-- The end-of-program test restores the invariant (R132). -/
theorem TickInv.endOfTick {s : State} (h : TickInv s) : MachineInv (endOfTick s) := by
  rw [Machine.endOfTick]
  split
  · rename_i hend
    exact { h with
      readyIp := fun hready => by cases hready
      faultRecorded := by rw [setStatus_fcause, h.faultRecorded, hend.1]; simp
      idleEmpty := fun hidle => by cases hidle }
  · rename_i hend
    exact { h with
      readyIp := fun hready => Nat.lt_of_not_le fun hle => hend ⟨hready, hle⟩
      idleEmpty := fun hidle => absurd hidle h.notIdle }

/-- The code of a cause is one of 1 to 5 (R230). -/
theorem FaultCause.code_legal (c : FaultCause) : c.code ≠ 0 ∧ c.code.toNat ≤ 5 := by
  cases c <;> decide

/-- Taking a fault records it (R236). -/
theorem TickInv.raise {s : State} (h : TickInv s) (c : FaultCause) (info : Word) : TickInv (raise c info s) :=
  { h with
    faultRecorded := iff_of_true c.code_legal.1 rfl
    fcauseLegal := c.code_legal.2
    finfoClear := fun hclear => absurd hclear c.code_legal.1
    notIdle := Status.noConfusion }

theorem TickInv.presentRequest {s : State} (h : TickInv s) (q : StorageRequest) : TickInv (presentRequest q s) :=
  { h with }

/-- Every instruction keeps it: memory is written by stores within bounds and by storage answers, whose memory is made
canonical; the status becomes Halted only where it was Ready, and the fault record is written only with Faulted. -/
theorem Effect.keeps_tickInv {i : Instr} {s t : State} (heffect : Effect i s t) (h : TickInv s)
    (hready : s.status = .ready) : TickInv t := by
  cases heffect with
  | reg _ _ _ ht | flags _ _ ht | jump _ _ ht => rw [ht]; exact { h with }
  | store ea v _ hb ht =>
    rw [ht]
    exact { h with
      memWf := Memory.wf_writeWord _ h.memWf _ v
      memWithin := Memory.within_writeWord _ h.memWithin (inBounds_le hb) v }
  | halt _ ht =>
    rw [ht]
    exact { h with
      faultRecorded := h.faultRecorded.trans (by simp [hready])
      notIdle := Status.noConfusion }
  | fault c info _ ht => rw [ht]; exact h.raise c info
  | answer q x f m _ ht =>
    rw [ht]
    exact { h.presentRequest q with
      memWf := Memory.wf_ofCells _ m
      memWithin := Memory.within_ofCells _ m }
  | storageFault q code _ ht => rw [ht]; exact (h.presentRequest q).raise _ code

/-- Every step keeps the invariant: outside Ready nothing changes, a decode fault is recorded, and an instruction is followed
by the end-of-program test. -/
theorem step_keeps_machineInv {s t : State} (h : MachineInv s) (hstep : step s = .next t) : MachineInv t := by
  rcases step_next hstep with ⟨-, rfl⟩ | ⟨w, f, hready, -, -, rfl⟩ | ⟨i, u, hi, hu, rfl⟩
  · exact h
  · have hraised : TickInv (raise (causeOf f) w s) := (h.tickInv hready).raise _ w
    rw [← endOfTick_of_faulted (raise_status (causeOf f) w s)]
    exact hraised.endOfTick
  · exact ((exec_next hu).keeps_tickInv (h.tickInv hi.1) hi.1).endOfTick

/-- Settles O43, from the inversion of the step. -/
theorem stepKeepsInvariant : Obligations.StepKeepsInvariant := fun _ _ => step_keeps_machineInv

/-! ### Steps without a next state -/

/-- Under the invariant a step ends in a state, or it runs a storage opcode that is never answered. -/
theorem step_next_or_unanswered {s : State} (h : MachineInv s) :
    (∃ t, step s = .next t) ∨
      ∃ i, Runs s i ∧ i.opcode.isStorage = true ∧ step s = .fault .storageNeverAnswers := by
  by_cases hready : s.status = .ready
  · obtain ⟨w, hw⟩ := (fetch_isSome_iff s).mpr (h.readyIp hready)
    cases hd : decode s.cfg.ord w with
    | fault f => exact .inl ⟨_, step_decodeFault hready hw hd⟩
    | instr i =>
      have hi : Runs s i := ⟨hready, w, hw, hd⟩
      obtain ⟨hnotRefused, hstop⟩ := exec_stop i s
      cases hexec : exec i s with
      | next u => exact .inl ⟨_, step_of_exec_next hi hexec⟩
      | fault f =>
        obtain ⟨rfl, hstorage⟩ := hstop f hexec
        exact .inr ⟨i, hi, hstorage, step_of_exec_fault hi hexec⟩
      | refused r => exact absurd hexec (hnotRefused r)
  · exact .inl ⟨s, step_of_not_ready hready⟩

/-- Settles O45: the invariant puts `ip` inside the program, and of the two ways a step can go on from there only an
unanswered storage call leaves no state. -/
theorem tickStopsOnlyWithoutAnswer : Obligations.TickStopsOnlyWithoutAnswer := by
  refine fun s h => ⟨fun hready => (fetch_isSome_iff s).mpr (h.readyIp hready), ?_⟩
  rcases step_next_or_unanswered h with ⟨t, hstep⟩ | ⟨i, hi, hstorage, hstep⟩
  · exact ⟨by simp [hstep], by simp [hstep], fun _ => ⟨t, hstep⟩⟩
  · refine ⟨by simp [hstep], fun f hf => ?_, fun hordinary => ?_⟩
    · rw [hstep] at hf
      cases hf
      exact ⟨rfl, i, hi, hstorage⟩
    · simp [hordinary i hi] at hstorage

/-- Settles O46: in Ready `ip` is below `PROG_LEN`, which is below `2^64`. -/
theorem incrementNeverWraps : Obligations.IncrementNeverWraps := by
  intro s h hready
  have hip : s.ip.toNat < s.prog.length := h.readyIp hready
  have hlen : s.prog.length < 2 ^ 64 := h.progLenBound
  exact BitVec.toNat_add_of_lt (show s.ip.toNat + 1 < 2 ^ 64 by omega)

end Sys2Proof.Machine
end

section
/-! PROOFS. The instructions that run without memory and without the storage port: moves (spec/41_move.md), SUBR, MULR, DIVR
(spec/43_arithmetic.md), jumps and HALT (spec/44_jump_halt.md), comparison and logic (spec/45_compare_logic.md). -/

namespace Sys2Proof

/-! ### The words of shapes `R`, `I`, `X` and `N` -/

/-- The register field of shape `R` names a register. -/
theorem decodeR_of_lt (mk : Reg → Instr) {ra : BitVec 58} (ha : ra.toNat < 12) :
    decodeR mk ra = some (mk ⟨ra.toNat, ha⟩) := by
  simp [decodeR, regOf?_of_lt ha]

/-- The register field of shape `R` names no register (R92). -/
theorem decodeR_of_ge (mk : Reg → Instr) {ra : BitVec 58} (ha : 12 ≤ ra.toNat) : decodeR mk ra = none := by
  simp [decodeR, regOf?_of_ge ha]

namespace Machine

/-- An opcode whose operand field is read as shape `R` has the words of that shape (R86, R92). -/
theorem wordsR_of_decodeR {m : Opcode} {n : BitVec 6} {mk : Reg → Instr} (hn : ordinal defaultOrd m = n)
    (hm : ∀ f, decodeOperands m f = decodeR mk f) : WordsR m n mk := by
  refine ⟨hn, fun o ho ra => ?_⟩
  rw [word58_eq]
  exact ⟨fun ha => decode_eq_instr ho ((hm _).trans (decodeR_of_lt mk ha)),
    fun h => illegal_of_decodeOperands ho ((hm _).trans (decodeR_of_ge mk h))⟩

/-- An opcode that takes its operand field as it is has the words of shapes `I` and `X` (R87, R89). -/
theorem wordsField_of_decode {m : Opcode} {n : BitVec 6} {mk : OperandField → Instr} (hn : ordinal defaultOrd m = n)
    (hm : ∀ f, decodeOperands m f = some (mk f)) : WordsField m n mk := by
  refine ⟨hn, fun o ho f => ?_⟩
  rw [word58_eq]
  exact decode_eq_instr ho (hm f)

/-- An opcode whose operand field must be zero has the words of shape `N` (R89). -/
theorem wordsN_of_decodeN {m : Opcode} {n : BitVec 6} {i : Instr} (hn : ordinal defaultOrd m = n)
    (hm : ∀ f, decodeOperands m f = decodeN i f) : WordsN m n i := by
  refine ⟨hn, fun o ho f => ?_⟩
  rw [word58_eq]
  exact ⟨fun hf => decode_eq_instr ho ((hm f).trans (if_pos hf)),
    fun hf => illegal_of_decodeOperands ho ((hm f).trans (if_neg hf))⟩

/-! ### Moves -/

/-- Settles O8: `exec` of MOVR writes the old value of `x[rb]`. -/
theorem movrCopiesRegister : Obligations.MovrCopiesRegister :=
  ⟨wordsRR_of_decodeRR rfl fun _ => rfl, fun ra _ s => ⟨_, rfl, regEffect_writeReg s ra _⟩⟩

/-- Zero extension keeps the value of the immediate (R93). -/
theorem zext54_toNat (imm : Imm54) : (zext54 imm).toNat = imm.toNat :=
  BitVec.toNat_setWidth_of_le (by decide)

/-- Settles O9: `exec` of MOVI writes the zero-extended immediate. -/
theorem moviLoadsImmediate : Obligations.MoviLoadsImmediate :=
  ⟨wordsRI_of_decodeRI rfl fun _ => rfl, fun ra imm s => ⟨_, _, rfl, regEffect_writeReg s ra _, zext54_toNat imm⟩⟩

/-! ### Arithmetic -/

/-- The difference by its value (R172). -/
theorem subWrap_toNat (a b : Word) : ((subWrap a b).toNat : Int) = ((a.toNat : Int) - b.toNat) % 2 ^ 64 := by
  have hnonneg : 0 ≤ ((a.toNat : Int) - b.toNat) % 2 ^ 64 := Int.emod_nonneg _ (by decide)
  rw [subWrap, BitVec.toNat_ofInt]
  exact Int.toNat_of_nonneg hnonneg

/-- Settles O15: `exec` of SUBR writes the wrapped difference, `rb` the minuend. -/
theorem subrSubtractsModulo : Obligations.SubrSubtractsModulo := by
  refine ⟨wordsRRR_of_decodeRRR rfl fun _ => rfl, fun ra rb rc s => ?_⟩
  obtain ⟨t, ht, heffect⟩ := regEffect_of_exec_writeResult (i := .subr ra rb rc) (s := s) rfl
  exact ⟨t, _, ht, heffect, subWrap_toNat _ _⟩

/-- The product by its value (R173). -/
theorem mulWrap_toNat (a b : Word) : (mulWrap a b).toNat = (a.toNat * b.toNat) % 2 ^ 64 :=
  BitVec.toNat_ofNat _ 64

/-- Settles O16: `exec` of MULR writes the wrapped product. -/
theorem mulrMultipliesModulo : Obligations.MulrMultipliesModulo := by
  refine ⟨wordsRRR_of_decodeRRR rfl fun _ => rfl, fun ra rb rc s => ?_⟩
  obtain ⟨t, ht, heffect⟩ := regEffect_of_exec_writeResult (i := .mulr ra rb rc) (s := s) rfl
  exact ⟨t, _, ht, heffect, mulWrap_toNat _ _⟩

/-- The quotient fits a word, since it is at most the dividend (R174). -/
theorem divFloor_toNat (a b : Word) : (divFloor a b).toNat = a.toNat / b.toNat := by
  rw [divFloor, BitVec.toNat_ofNat]
  exact Nat.mod_eq_of_lt (Nat.lt_of_le_of_lt (Nat.div_le_self _ _) a.isLt)

/-- The law of division with remainder (R174). -/
theorem divFloor_law (a : Word) {b : Word} (hb : b ≠ 0) :
    ∃ r, a.toNat = (divFloor a b).toNat * b.toNat + r ∧ r < b.toNat := by
  have hpos : 0 < b.toNat := by
    rw [Nat.pos_iff_ne_zero]
    exact fun h => hb (BitVec.eq_of_toNat_eq h)
  refine ⟨a.toNat % b.toNat, ?_, Nat.mod_lt _ hpos⟩
  rw [divFloor_toNat, Nat.div_add_mod']

/-- DIVR by a divisor other than 0 (R174). -/
theorem exec_divr_of_ne {rc : Reg} {s : State} (ra rb : Reg) (h : readReg s rc ≠ 0) :
    exec (.divr ra rb rc) s = writeResult ra (divFloor (readReg s rb) (readReg s rc)) s :=
  if_neg h

/-- DIVR by 0 (R234). -/
theorem exec_divr_of_eq {rc : Reg} {s : State} (ra rb : Reg) (h : readReg s rc = 0) :
    exec (.divr ra rb rc) s = .next (raise .divideByZero 0 s) :=
  if_pos h

/-- Settles O17: with a divisor other than 0 DIVR writes the quotient, which obeys the law of division; with 0 it faults. -/
theorem divrDividesOrFaults : Obligations.DivrDividesOrFaults := by
  refine ⟨wordsRRR_of_decodeRRR rfl fun _ => rfl, fun ra rb rc s => ⟨fun hne => ?_, fun heq => ?_⟩⟩
  · obtain ⟨t, ht, heffect⟩ := regEffect_of_exec_writeResult (exec_divr_of_ne ra rb hne)
    exact ⟨t, _, ht, heffect, divFloor_law _ hne⟩
  · exact ⟨_, exec_divr_of_eq ra rb heq, faultEffect_raise s _ 0, samePort_raise s _ 0⟩

/-! ### Control transfer -/

/-- Settles O18: `exec` of JMPR sets `ip` to the register's value. -/
theorem jmprJumpsToRegister : Obligations.JmprJumpsToRegister :=
  ⟨wordsR_of_decodeR rfl fun _ => rfl, fun _ s => ⟨_, rfl, jumpEffect_setIp s _⟩⟩

/-- Settles O19: `exec` of JMPI sets `ip` to the zero-extended immediate. -/
theorem jmpiJumpsToImmediate : Obligations.JmpiJumpsToImmediate :=
  ⟨wordsField_of_decode rfl fun _ => rfl, fun imm s => ⟨_, _, rfl, jumpEffect_setIp s _, zext58_toNat imm⟩⟩

/-- Settles O20: `exec` of HALT advances `ip`, then halts. -/
theorem haltAdvancesAndHalts : Obligations.HaltAdvancesAndHalts :=
  ⟨wordsN_of_decodeN rfl fun _ => rfl, fun s => ⟨_, rfl, haltEffect_setStatus s⟩⟩

/-! ### Comparison and logic -/

/-- An instruction that writes a truth value into the flags word completes, and changes the flags and `ip` alone (R190). -/
theorem flagsEffect_of_exec_writeFlags {i : Instr} {s : State} {c : Bool} {p : Prop} [Decidable p]
    (h : exec i s = writeFlags (b2w c) s) (hc : c = true ↔ p) :
    ∃ t, exec i s = .next t ∧ FlagsEffect s t (if p then 1 else 0) := by
  have hv : b2w c = if p then 1 else 0 := by simp [b2w, hc]
  exact ⟨_, h, hv ▸ flagsEffect_setFlags s _⟩

/-- Settles O21: `exec` of EQ writes whether the two registers agree. -/
theorem eqComparesRegisters : Obligations.EqComparesRegisters :=
  ⟨wordsRR_of_decodeRR rfl fun _ => rfl, fun _ _ _ => flagsEffect_of_exec_writeFlags rfl beq_iff_eq⟩

/-- Settles O22: `exec` of AND writes whether neither register is 0. -/
theorem andIsLogical : Obligations.AndIsLogical :=
  ⟨wordsRR_of_decodeRR rfl fun _ => rfl, fun _ _ _ => flagsEffect_of_exec_writeFlags rfl (by simp)⟩

/-- Settles O23: `exec` of LT writes the order of the two values as natural numbers. -/
theorem ltComparesUnsigned : Obligations.LtComparesUnsigned :=
  ⟨wordsRR_of_decodeRR rfl fun _ => rfl, fun _ _ _ => flagsEffect_of_exec_writeFlags rfl decide_eq_true_iff⟩

/-- Settles O24: `exec` of NOT writes whether the register is 0. -/
theorem notTestsForZero : Obligations.NotTestsForZero :=
  ⟨wordsR_of_decodeR rfl fun _ => rfl, fun _ _ => flagsEffect_of_exec_writeFlags rfl beq_iff_eq⟩

/-! ### Sources and destination -/

/-- Doubling a register in place (R131, R171). -/
theorem exec_addr_same (r : Reg) (s : State) :
    ∃ t, exec (.addr r r r) s = .next t ∧ (readReg t r).toNat = (2 * (readReg s r).toNat) % 2 ^ 64 := by
  obtain ⟨t, v, ht, heffect, hv⟩ := addrAddsModulo.2 r r r s
  exact ⟨t, ht, by rw [heffect.dest, hv, Nat.two_mul]⟩

/-- Moving a register to itself changes no register (R131, R150). -/
theorem exec_movr_same (r : Reg) (s : State) : ∃ t, exec (.movr r r) s = .next t ∧ SameRegs s t := by
  obtain ⟨t, ht, heffect⟩ := movrCopiesRegister.2 r r s
  refine ⟨t, ht, fun r' => ?_⟩
  by_cases hr : r' = r
  · rw [hr, heffect.dest]
  · exact heffect.others r' hr

/-- Loading a register from the address it holds (R131, R161). -/
theorem exec_ldr_same {r : Reg} {s : State} (hb : InBounds s.cfg (readReg s r)) :
    ∃ t, exec (.ldr r r) s = .next t ∧
      (readReg t r).toNat = valueAt s.cfg.byteOrder s.mem (readReg s r).toNat := by
  obtain ⟨t, v, ht, heffect, hv⟩ := (ldrLoadsFromRegisterAddress.2 r r s).inside hb
  exact ⟨t, ht, by rw [heffect.dest, hv]⟩

/-- Settles O54: each of the three follows from the instruction's own rule, whose value is that of the state before. -/
theorem sourcesReadBeforeDestination : Obligations.SourcesReadBeforeDestination := fun r s =>
  ⟨exec_addr_same r s, exec_movr_same r s, exec_ldr_same⟩

end Machine

end Sys2Proof
end

section
/-! PROOFS. The storage opcodes (spec/46_storage.md): the call each makes, completion on a known answer, and one request per
executed opcode. -/

namespace Sys2Proof.Machine

/-! ### The four calls -/

/-- Settles O25: `exec` of SLD is the storage call `load`. -/
theorem sldCallsStorageLoad : Obligations.SldCallsStorageLoad :=
  ⟨wordsField_of_decode rfl fun _ => rfl, fun raw s => storageEffect_storageCall .load raw s⟩

/-- Settles O26: `exec` of SST is the storage call `store`. -/
theorem sstCallsStorageStore : Obligations.SstCallsStorageStore :=
  ⟨wordsField_of_decode rfl fun _ => rfl, fun raw s => storageEffect_storageCall .store raw s⟩

/-- Settles O27: `exec` of SPUB is the storage call `publish`. -/
theorem spubCallsStoragePublish : Obligations.SpubCallsStoragePublish :=
  ⟨wordsField_of_decode rfl fun _ => rfl, fun raw s => storageEffect_storageCall .publish raw s⟩

/-- Settles O28: `exec` of SSUB is the storage call `subscribe`. -/
theorem ssubCallsStorageSubscribe : Obligations.SsubCallsStorageSubscribe :=
  ⟨wordsField_of_decode rfl fun _ => rfl, fun raw s => storageEffect_storageCall .subscribe raw s⟩

/-- Every storage opcode is a storage call with its operand field as `raw58`. -/
theorem exec_eq_storageCall {i : Instr} (hi : i.opcode.isStorage = true) (s : State) :
    ∃ op, exec i s = storageCall op i.operands s := by
  cases i with
  | sld => exact ⟨.load, rfl⟩
  | sst => exact ⟨.store, rfl⟩
  | spub => exact ⟨.publish, rfl⟩
  | ssub => exact ⟨.subscribe, rfl⟩
  | movr | movi | ldr | ldi | str | sti | addr | subr | mulr | divr | jmpr | jmpi | eq | and | lt | not | halt => cases hi

/-! ### A known answer -/

/-- A storage call whose reply is known to be `ok(x, f, m)` commits it. -/
theorem storageCall_of_known_ok {s : State} {x : Vector Word 12} {f : Word} {m : List Host.Cell}
    {rest : List StorageReply} (h : s.replies = .ok x f m :: rest) (op : StorageOp) (raw : OperandField) :
    storageCall op raw s = .next (commitOk x f m (presentRequest (requestOf op raw s) s)) := by
  have hreply : replyTo (requestOf op raw s) s = .ok x f m := by simp [replyTo, h]
  rw [storageCall, hreply]
  rfl

/-- At and above the capacity a memory reads 0. -/
theorem readByte_of_within {size : Nat} {m : Memory} (h : Memory.within size m) {a : Nat} (ha : size ≤ a) :
    m.readByte a = 0 :=
  Memory.readByte_of_not_listed fun c hc => Nat.ne_of_lt (Nat.lt_of_lt_of_le (h c hc) ha)

/-- Settles O29: the known reply is the one the call gets, and its cells at or above `MEM_SIZE` are dropped. -/
theorem storageOpcodesCompleteOnAnswer : Obligations.StorageOpcodesCompleteOnAnswer := by
  intro i raw s x f m rest hi hreplies
  have hstorage : i.opcode.isStorage = true := by rcases hi with rfl | rfl | rfl | rfl <;> rfl
  obtain ⟨op, hexec⟩ := exec_eq_storageCall hstorage s
  rw [storageCall_of_known_ok hreplies] at hexec
  refine ⟨_, hexec, answerEffect_commitOk s _ x f m, ?_, fun a ha => ?_⟩
  · rw [commitOk_replies, presentRequest_replies, hreplies, List.tail_cons]
  · exact readByte_of_within (Memory.within_ofCells _ m) ha

/-! ### One request per storage opcode -/

/-- A storage call that ends in a state has presented its request, answered or failed (R201). -/
theorem requestEffect_of_storageCall {op : StorageOp} {raw : OperandField} {s t : State}
    (h : storageCall op raw s = .next t) : RequestEffect s t (requestOf op raw s) := by
  unfold storageCall commitReply at h
  split at h
  case h_1 => cases h
  case h_2 => cases h; exact ⟨rfl, rfl⟩
  case h_3 => cases h; exact ⟨rfl, rfl⟩

/-- An ordinary instruction leaves the storage port alone. -/
theorem Effect.samePort {i : Instr} {s t : State} (h : Effect i s t) (hi : i.opcode.isStorage = false) :
    SamePort s t := by
  cases h with
  | reg _ _ _ ht | store _ _ _ _ ht | flags _ _ ht | jump _ _ ht | halt _ ht | fault _ _ _ ht =>
    rw [ht]
    exact ⟨rfl, rfl⟩
  | answer _ _ _ _ hstorage | storageFault _ _ hstorage => simp [hi] at hstorage

/-- Settles O53, from the inversion of the step: a storage opcode is a storage call, every other instruction leaves the port
alone, and so does the end-of-program test. -/
theorem oneRequestPerStorageOpcode : Obligations.OneRequestPerStorageOpcode := by
  refine fun s t hstep => ⟨fun hordinary => ?_, fun i hi hstorage => ?_⟩
  · rcases step_next hstep with ⟨-, rfl⟩ | ⟨w, f, -, -, -, rfl⟩ | ⟨i, u, hi, hu, rfl⟩
    · exact samePort_refl t
    · exact samePort_raise s _ w
    · obtain ⟨hreplies, hrequests⟩ := (exec_next hu).samePort (hordinary i hi)
      exact ⟨by rw [endOfTick_replies, hreplies], by rw [endOfTick_requests, hrequests]⟩
  · obtain ⟨u, hu, rfl⟩ := exec_next_of_step hi hstep
    obtain ⟨op, hexec⟩ := exec_eq_storageCall hstorage s
    obtain ⟨hrequests, hreplies⟩ := requestEffect_of_storageCall (hexec.symm.trans hu)
    exact ⟨op, by rw [endOfTick_requests, hrequests]; rfl, by rw [endOfTick_replies, hreplies]⟩

end Sys2Proof.Machine
end

section
/-! PROOFS. The status (spec/40_execution_cycle.md R121, R125, R132), the register file (R213) and the flags word (R28, R29):
what a step can do to each, and what the host is told. -/

namespace Sys2Proof.Machine

/-! ### Outside Ready, and the report -/

/-- Settles O32: none of the three statuses is Ready. -/
theorem tickOutsideReadyChangesNothing : Obligations.TickOutsideReadyChangesNothing := by
  intro s hs
  refine step_of_not_ready ?_
  rcases hs with h | h | h <;> simp [h]

/-- Settles O52: the five codes are those of R230, and the entry is `raise`. -/
theorem faultEntryRecordsCause : Obligations.FaultEntryRecordsCause :=
  ⟨rfl, rfl, rfl, rfl, rfl, fun c info s => ⟨faultEffect_raise s c info, samePort_raise s c info⟩⟩

/-- Settles O56: the report is made of the state, and outside Ready the state stays. -/
theorem tickReportsFaultRecord : Obligations.TickReportsFaultRecord :=
  ⟨fun _ => ⟨rfl, fun h => if_pos h, fun h => if_neg h⟩, fun s h => ⟨s, step_of_not_ready h, rfl⟩⟩

/-! ### The status after a tick -/

/-- An instruction that does not fault ends Halted if it is HALT, and keeps the status otherwise (R121). -/
theorem Effect.status_eq {i : Instr} {s t : State} (h : Effect i s t) (hne : t.status ≠ .faulted) :
    t.status = if i = .halt then .halted else s.status := by
  cases h with
  | reg _ _ hi ht | store _ _ hi _ ht | flags _ hi ht | jump _ hi ht | answer _ _ _ _ hi ht =>
    have hhalt : i ≠ .halt := by
      rintro rfl
      simp [Instr.opcode, Opcode.isStorage] at hi
    rw [ht, if_neg hhalt]
    rfl
  | halt hi ht => rw [ht, if_pos hi]; rfl
  | fault _ _ _ ht | storageFault _ _ _ ht => rw [ht] at hne; exact absurd rfl hne

/-- The status after a tick whose instruction did not fault: Halted after HALT and past the end of the program, else Ready
(R121, R132). -/
theorem endOfTick_status_of_exec {s u : State} {i : Instr} (hi : Runs s i) (hu : exec i s = .next u)
    (hne : u.status ≠ .faulted) :
    (endOfTick u).status = if i = .halt ∨ progLen s ≤ u.ip.toNat then .halted else .ready := by
  rw [endOfTick_status, progLen_eq, progLen_eq, (exec_next hu).keeps_prog_cfg.1, (exec_next hu).status_eq hne, hi.1]
  by_cases hhalt : i = .halt <;> simp [hhalt]

/-- Settles O33: construction, reset and `load` write the status outright; a tick in Ready leaves it as the instruction and
the end-of-program test do, or Faulted. -/
theorem statusTransitionTable : Obligations.StatusTransitionTable := by
  refine ⟨fun _ => rfl, fun _ _ => rfl, fun p s hp => if_pos (List.length_pos_iff.mpr hp), fun _ => rfl,
    fun _ => step_of_not_ready, fun s i u hi hu hne => ?_, fun s i u hi hu hfaulted => ?_,
    fun s w f hready hw hf => ⟨_, step_decodeFault hready hw hf, rfl⟩⟩
  · refine ⟨_, step_of_exec_next hi hu, endOfTick_ip u, fun h => ?_, fun h => ?_⟩
    · rw [endOfTick_status_of_exec hi hu hne, if_pos h]
    · rw [endOfTick_status_of_exec hi hu hne, if_neg (by simpa using h)]
  · rw [step_of_exec_next hi hu, endOfTick_of_faulted hfaulted]

/-- A tick that runs a jump ends at the target, Halted if it lies past the end of the program (R132, R184). -/
theorem step_of_jump {s : State} {i : Instr} {target : Word} (hi : Runs s i) (hhalt : i ≠ .halt)
    (hexec : exec i s = .next (setIp target s)) : ∃ t, step s = .next t ∧ t.ip = target ∧
      t.status = (if progLen s ≤ target.toNat then .halted else .ready) := by
  have hne : (setIp target s).status ≠ .faulted := by simp [hi.1]
  refine ⟨_, step_of_exec_next hi hexec, endOfTick_ip _, ?_⟩
  rw [endOfTick_status_of_exec hi hexec hne, setIp_ip]
  exact if_congr (or_iff_right hhalt) rfl rfl

/-- Settles O55: both jumps are `setIp` of their target. -/
theorem jumpTargetsNeverFault : Obligations.JumpTargetsNeverFault := by
  rintro s i target hi (⟨ra, rfl, rfl⟩ | ⟨imm, rfl, htarget⟩)
  · exact step_of_jump hi Instr.noConfusion rfl
  · obtain rfl : target = zext58 imm := BitVec.eq_of_toNat_eq (htarget.trans (zext58_toNat imm).symm)
    exact step_of_jump hi Instr.noConfusion rfl

/-! ### Registers -/

/-- An ordinary instruction writes at most one register (R213). -/
theorem Effect.regs_but_one {i : Instr} {s t : State} (h : Effect i s t) (hi : i.opcode.isStorage = false) :
    ∃ rd, ∀ r, r ≠ rd → readReg t r = readReg s r := by
  cases h with
  | reg rd v _ ht =>
    rw [ht]
    exact ⟨rd, (regEffect_writeReg s rd v).others⟩
  | store _ _ _ _ ht | flags _ _ ht | jump _ _ ht | halt _ ht | fault _ _ _ ht =>
    rw [ht]
    exact ⟨0, fun _ _ => rfl⟩
  | answer _ _ _ _ hstorage | storageFault _ _ hstorage => simp [hi] at hstorage

/-- Settles O38, from the inversion of the step. -/
theorem atMostOneRegisterPerTick : Obligations.AtMostOneRegisterPerTick := by
  intro s t hstep hordinary
  rcases step_next hstep with ⟨-, rfl⟩ | ⟨w, f, -, -, -, rfl⟩ | ⟨i, u, hi, hu, rfl⟩
  · exact ⟨0, fun _ _ => rfl⟩
  · exact ⟨0, fun _ _ => rfl⟩
  · simpa using (exec_next hu).regs_but_one (hordinary i hi)

/-! ### Writing the flags word -/

/-- An instruction keeps the flags word, or it is a comparison and writes a truth value, or it is a storage opcode
(R28, R29). -/
theorem Effect.flags_cases {i : Instr} {s t : State} (h : Effect i s t) :
    t.flags = s.flags ∨
      ((i.opcode = .eq ∨ i.opcode = .and ∨ i.opcode = .lt ∨ i.opcode = .not) ∧ ∃ c, t.flags = b2w c) ∨
      i.opcode.isStorage = true := by
  cases h with
  | flags c hi ht =>
    rw [ht]
    exact .inr (.inl ⟨hi, c, rfl⟩)
  | answer _ _ _ _ hi | storageFault _ _ hi => exact .inr (.inr hi)
  | reg _ _ _ ht | store _ _ _ _ ht | jump _ _ ht | halt _ ht | fault _ _ _ ht =>
    rw [ht]
    exact .inl rfl

/-- A step keeps the flags word, or it runs an instruction of which `Effect.flags_cases` says what it writes. -/
theorem step_flags_cases {s t : State} (hstep : step s = .next t) :
    t.flags = s.flags ∨ ∃ i, Runs s i ∧
      (((i.opcode = .eq ∨ i.opcode = .and ∨ i.opcode = .lt ∨ i.opcode = .not) ∧ ∃ c, t.flags = b2w c) ∨
        i.opcode.isStorage = true) := by
  rcases step_next hstep with ⟨-, rfl⟩ | ⟨w, f, -, -, -, rfl⟩ | ⟨i, u, hi, hu, rfl⟩
  · exact .inl rfl
  · exact .inl rfl
  · rw [endOfTick_flags]
    exact (exec_next hu).flags_cases.imp_right fun h => ⟨i, hi, h⟩

/-- Settles O39: a changed flags word excludes the first of the cases. -/
theorem flagsWrittenOnlyByComparisons : Obligations.FlagsWrittenOnlyByComparisons := by
  intro s t hstep hchanged
  obtain ⟨i, hi, hop⟩ := (step_flags_cases hstep).resolve_left hchanged
  refine ⟨i, hi, ?_⟩
  rcases hop with ⟨hcompare, -⟩ | hstorage
  · rcases hcompare with h | h | h | h <;> simp [h]
  · simp [hstorage]

/-- A truth value as a word is 0 or 1 (R10). -/
theorem b2w_boolean (c : Bool) : b2w c = 0 ∨ b2w c = 1 := by
  cases c
  · exact .inl rfl
  · exact .inr rfl

/-- Settles O41: without a storage opcode the flags word is kept or is a truth value. -/
theorem flagsStayBoolean : Obligations.FlagsStayBoolean := by
  intro s t hordinary hstep hflags
  rcases step_flags_cases hstep with hkeep | ⟨i, hi, ⟨-, c, hc⟩ | hstorage⟩
  · rwa [hkeep]
  · rw [hc]
    exact b2w_boolean c
  · simp [hordinary i hi] at hstorage

/-! ### Reading the flags word -/

/-- The meaning `g` neither reads the flags word nor writes it: started with another one it ends in the same state but for
that word. -/
def KeepsFlags (g : State → Host.Outcome State Fault Refusal) : Prop :=
  ∀ (f : Word) (s u : State), g s = .next u → g (setFlags f s) = .next (setFlags f u) ∧ u.flags = s.flags

theorem keepsFlags_loadFrom (ra : Reg) (ea : Word) : KeepsFlags (loadFrom ra ea) := by
  intro f s u hu
  rw [loadFrom_eq] at hu ⊢
  cases hu
  rw [setFlags_cfg]
  split <;> exact ⟨rfl, rfl⟩

theorem keepsFlags_storeTo (ra : Reg) (ea : Word) : KeepsFlags (storeTo ra ea) := by
  intro f s u hu
  rw [storeTo_eq] at hu ⊢
  cases hu
  rw [setFlags_cfg]
  split <;> exact ⟨rfl, rfl⟩

theorem keepsFlags_divr (ra rb rc : Reg) : KeepsFlags (exec (.divr ra rb rc)) := by
  intro f s u hu
  by_cases hzero : readReg s rc = 0
  · rw [exec_divr_of_eq ra rb hzero] at hu
    cases hu
    exact ⟨exec_divr_of_eq (s := setFlags f s) ra rb hzero, rfl⟩
  · rw [exec_divr_of_ne ra rb hzero] at hu
    cases hu
    exact ⟨exec_divr_of_ne (s := setFlags f s) ra rb hzero, rfl⟩

/-- An ordinary instruction, started with another flags word, ends with that one where it keeps the word, and in the very
same state where it writes it (R29, R183). -/
theorem exec_setFlags {i : Instr} {s u : State} (hi : i.opcode.isStorage = false) (hu : exec i s = .next u) (f : Word) :
    (exec i (setFlags f s) = .next (setFlags f u) ∧ u.flags = s.flags) ∨ exec i (setFlags f s) = .next u := by
  cases i with
  | movr | movi | addr | subr | mulr | jmpr | jmpi | halt => cases hu; exact .inl ⟨rfl, rfl⟩
  | ldr ra rb => exact .inl (keepsFlags_loadFrom ra (readReg s rb) f s u hu)
  | ldi ra imm => exact .inl (keepsFlags_loadFrom ra (eaImm imm) f s u hu)
  | str ra rb => exact .inl (keepsFlags_storeTo ra (readReg s rb) f s u hu)
  | sti ra imm => exact .inl (keepsFlags_storeTo ra (eaImm imm) f s u hu)
  | divr ra rb rc => exact .inl (keepsFlags_divr ra rb rc f s u hu)
  | eq | and | lt | not => cases hu; exact .inr rfl
  | sld | sst | spub | ssub => cases hi

/-- The end-of-program test does not read the flags word. -/
theorem endOfTick_setFlags (f : Word) (s : State) : endOfTick (setFlags f s) = setFlags f (endOfTick s) := by
  unfold endOfTick
  rw [setFlags_status, setFlags_ip, progLen_eq, progLen_eq, setFlags_prog]
  split <;> rfl

/-- Settles O40: the fetch, the decoder and the end-of-program test do not read the flags word, and no ordinary instruction
does. -/
theorem flagsAreNeverRead : Obligations.FlagsAreNeverRead := by
  intro s t f hordinary hstep
  rcases step_next hstep with ⟨hnot, rfl⟩ | ⟨w, g, hready, hw, hd, rfl⟩ | ⟨i, u, hi, hu, rfl⟩
  · exact ⟨_, step_of_not_ready (s := setFlags f t) hnot, rfl, .inr ⟨rfl, rfl⟩⟩
  · exact ⟨_, step_decodeFault (s := setFlags f s) hready hw hd, rfl, .inr ⟨rfl, rfl⟩⟩
  · have hi' : Runs (setFlags f s) i := hi
    rcases exec_setFlags (hordinary i hi) hu f with ⟨hu', hkeep⟩ | hu'
    · refine ⟨_, step_of_exec_next hi' hu', ?_, .inr ⟨?_, ?_⟩⟩
      · rw [endOfTick_setFlags]; rfl
      · rw [endOfTick_flags, setFlags_flags]
      · rw [endOfTick_flags, hkeep]
    · exact ⟨_, step_of_exec_next hi' hu', rfl, .inl rfl⟩

end Sys2Proof.Machine
end

section
/-! PROOFS. The bounds test, a load after a store, and the canonical form of memory (spec/20_memory.md R52, R55, R62). -/

namespace Sys2Proof.Machine

/-! ### The bounds test -/

/-- In bounds means under either setting that all 8 bytes lie below `MEM_SIZE` (R55). -/
theorem InBounds.le {c : Config} {a : Word} (h : InBounds c a) : a.toNat + 8 ≤ c.memSize :=
  inBounds_le ((inBounds_iff c a).mpr h)

/-- Settles O49: each consequence is arithmetic on unbounded integers. -/
theorem boundsTestIsUnbounded : Obligations.BoundsTestIsUnbounded := by
  refine ⟨inBounds_iff, fun c a hstrict => ⟨fun hsmall h => ?_, fun h => ?_⟩, fun c a hsize htop h => ?_⟩
  · have := h.le
    have := h.1 hstrict
    omega
  · have := h.1 hstrict
    omega
  · have := h.le
    omega

/-! ### A load after a store -/

/-- A load from where a store has just stored delivers the stored value (R62). -/
theorem loadFrom_after_storeTo {s : State} {ea : Word} (hm : Memory.wf s.mem) (hb : InBounds s.cfg ea) (ra rc : Reg) :
    ∃ t u, storeTo ra ea s = .next t ∧ SameRegs s t ∧ loadFrom rc ea t = .next u ∧ readReg u rc = readReg s ra := by
  refine ⟨_, _, storeTo_inBounds ra hb, fun _ => rfl, loadFrom_inBounds rc hb, ?_⟩
  rw [readReg_advance, readReg_writeReg_same]
  exact Memory.readWord_writeWord s.cfg.byteOrder hm ea.toNat _

/-- Settles O50: both pairs are a store and a load at one address; the store leaves the address register alone. -/
theorem loadReturnsStoredValue : Obligations.LoadReturnsStoredValue := by
  refine fun s ra rc hm => ⟨fun rb hb => ?_, fun imm hb => ?_⟩
  · obtain ⟨t, u, hstore, hregs, hload, hvalue⟩ := loadFrom_after_storeTo hm hb ra rc
    rw [← hregs rb] at hload
    exact ⟨t, u, hstore, hload, hvalue⟩
  · rw [← eaImm_eq_ofNat] at hb
    obtain ⟨t, u, hstore, -, hload, hvalue⟩ := loadFrom_after_storeTo hm hb ra rc
    exact ⟨t, u, hstore, hload, hvalue⟩

end Sys2Proof.Machine

namespace Sys2Proof.Machine.Memory

/-! ### Canonical memories -/

/-- What follows the first cell of a canonical memory is canonical, and lies above it. -/
theorem wf_cons {a : Nat} {b : Byte} {m : Memory} :
    Memory.wf ((a, b) :: m) ↔ b ≠ unlisted ∧ (∀ c ∈ m, a < c.1) ∧ m.wf := by
  simp only [Memory.wf, List.pairwise_cons, List.forall_mem_cons]
  tauto

/-- The first cell of a list is what its address reads as. -/
theorem readByte_head (a : Nat) (b : Byte) (m : Memory) : readByte ((a, b) :: m) a = b :=
  if_pos rfl

/-- An address below every cell reads as an unlisted one. -/
theorem readByte_of_lt_all {m : Memory} {a : Nat} (h : ∀ c ∈ m, a < c.1) : m.readByte a = unlisted :=
  readByte_of_not_listed fun c hc => Nat.ne_of_gt (h c hc)

/-- The first cell of a canonical memory is the lowest address that does not read as an unlisted one. -/
theorem head_le_of_readByte_ne {a x : Nat} {b : Byte} {m : Memory} (hm : Memory.wf ((a, b) :: m))
    (hx : readByte ((a, b) :: m) x ≠ unlisted) : a ≤ x := by
  obtain ⟨-, hrest, -⟩ := wf_cons.mp hm
  by_contra hlt
  refine hx (readByte_of_lt_all fun c hc => ?_)
  rcases List.mem_cons.mp hc with rfl | hc
  · omega
  · have := hrest c hc
    omega

/-- Canonical memories that read alike have the same first cell, and their rests read alike. -/
theorem head_eq_of_readByte_eq {a a' : Nat} {b b' : Byte} {m m' : Memory} (hm : Memory.wf ((a, b) :: m))
    (hm' : Memory.wf ((a', b') :: m')) (h : ∀ x, readByte ((a, b) :: m) x = readByte ((a', b') :: m') x) :
    (a, b) = (a', b') ∧ ∀ x, m.readByte x = m'.readByte x := by
  obtain ⟨hb, hrest, -⟩ := wf_cons.mp hm
  obtain ⟨hb', hrest', -⟩ := wf_cons.mp hm'
  have hle : a ≤ a' := head_le_of_readByte_ne hm (by rwa [h, readByte_head])
  have hge : a' ≤ a := head_le_of_readByte_ne hm' (by rwa [← h, readByte_head])
  obtain rfl : a = a' := Nat.le_antisymm hle hge
  obtain rfl : b = b' := by simpa only [readByte_head] using h a
  refine ⟨rfl, fun x => ?_⟩
  by_cases hx : x = a
  · rw [hx, readByte_of_lt_all hrest, readByte_of_lt_all hrest']
  · simpa only [readByte_cons, if_neg hx] using h x

/-- A canonical memory is determined by what it reads as. -/
theorem eq_of_readByte_eq {m m' : Memory} (hm : m.wf) (hm' : m'.wf) (h : ∀ x, m.readByte x = m'.readByte x) : m = m' := by
  induction m generalizing m' with
  | nil =>
    cases m' with
    | nil => rfl
    | cons c m' =>
      obtain ⟨hb, -⟩ := wf_cons.mp hm'
      exact absurd ((h c.1).trans (readByte_head c.1 c.2 m')).symm hb
  | cons c m ih =>
    obtain ⟨hb, -, hrest⟩ := wf_cons.mp hm
    cases m' with
    | nil => exact absurd ((readByte_head c.1 c.2 m).symm.trans (h c.1)) hb
    | cons c' m' =>
      obtain ⟨-, -, hrest'⟩ := wf_cons.mp hm'
      obtain ⟨hhead, htail⟩ := head_eq_of_readByte_eq hm hm' h
      exact congrArg₂ List.cons hhead (ih hrest hrest' htail)

/-- Settles O51, by induction on the two lists of cells. -/
theorem memoriesThatReadAlikeAreEqual : Obligations.MemoriesThatReadAlikeAreEqual := fun _ _ => eq_of_readByte_eq

end Sys2Proof.Machine.Memory
end

section
/-! PROOFS. The encoder's text (spec/30_encoding.md R100 to R110): what an accepted line and an accepted text stand for. -/

namespace Sys2Proof.Machine

/-! ### An accepted operand text -/

/-- A chain is accepted where its first part is, and the rest is with the value the first part gives. -/
theorem Asm.andThen_eq_ok {α β : Type} {a : Asm α} {f : α → Asm β} {y : β} :
    a.andThen f = .ok y ↔ ∃ x, a = .ok x ∧ f x = .ok y := by
  cases a <;> simp [Asm.andThen]

theorem asmRR_ok {mk : Reg → Reg → Instr} {ts : List (List Char)} {i : Instr} (h : asmRR mk ts = .ok i) :
    ∃ ra rb, i = mk ra rb := by
  unfold asmRR at h
  split at h
  · obtain ⟨ra, -, h⟩ := Asm.andThen_eq_ok.mp h
    obtain ⟨rb, -, h⟩ := Asm.andThen_eq_ok.mp h
    cases h
    exact ⟨ra, rb, rfl⟩
  · cases h

theorem asmRI_ok {mk : Reg → Imm54 → Instr} {ts : List (List Char)} {i : Instr} (h : asmRI mk ts = .ok i) :
    ∃ ra imm, i = mk ra imm := by
  unfold asmRI at h
  split at h
  · obtain ⟨ra, -, h⟩ := Asm.andThen_eq_ok.mp h
    obtain ⟨imm, -, h⟩ := Asm.andThen_eq_ok.mp h
    cases h
    exact ⟨ra, imm, rfl⟩
  · cases h

theorem asmR_ok {mk : Reg → Instr} {ts : List (List Char)} {i : Instr} (h : asmR mk ts = .ok i) : ∃ ra, i = mk ra := by
  unfold asmR at h
  split at h
  · obtain ⟨ra, -, h⟩ := Asm.andThen_eq_ok.mp h
    cases h
    exact ⟨ra, rfl⟩
  · cases h

theorem asmI_ok {mk : Imm58 → Instr} {ts : List (List Char)} {i : Instr} (h : asmI mk ts = .ok i) :
    ∃ imm, i = mk imm := by
  unfold asmI at h
  split at h
  · obtain ⟨imm, -, h⟩ := Asm.andThen_eq_ok.mp h
    cases h
    exact ⟨imm, rfl⟩
  · cases h

theorem asmRRR_ok {mk : Reg → Reg → Reg → Instr} {ts : List (List Char)} {i : Instr} (h : asmRRR mk ts = .ok i) :
    ∃ ra rb rc, i = mk ra rb rc := by
  unfold asmRRR at h
  split at h
  · obtain ⟨ra, -, h⟩ := Asm.andThen_eq_ok.mp h
    obtain ⟨rb, -, h⟩ := Asm.andThen_eq_ok.mp h
    obtain ⟨rc, -, h⟩ := Asm.andThen_eq_ok.mp h
    cases h
    exact ⟨ra, rb, rc, rfl⟩
  · cases h

theorem asmN_ok {j : Instr} {ts : List (List Char)} {i : Instr} (h : asmN j ts = .ok i) : i = j := by
  cases ts with
  | nil => cases h; rfl
  | cons => cases h

/-- The instruction of an accepted operand text is one of the mnemonic's opcode, which is no storage opcode (R110). -/
theorem assembleOperands_ok {m : Opcode} {ts : List (List Char)} {i : Instr} (h : assembleOperands m ts = .ok i) :
    i.opcode = m ∧ m.isStorage = false := by
  cases m with
  | movr | ldr | str | eq | and | lt => obtain ⟨_, _, rfl⟩ := asmRR_ok h; exact ⟨rfl, rfl⟩
  | movi | ldi | sti => obtain ⟨_, _, rfl⟩ := asmRI_ok h; exact ⟨rfl, rfl⟩
  | addr | subr | mulr | divr => obtain ⟨_, _, _, rfl⟩ := asmRRR_ok h; exact ⟨rfl, rfl⟩
  | jmpr | not => obtain ⟨_, rfl⟩ := asmR_ok h; exact ⟨rfl, rfl⟩
  | jmpi => obtain ⟨_, rfl⟩ := asmI_ok h; exact ⟨rfl, rfl⟩
  | halt => obtain rfl := asmN_ok h; exact ⟨rfl, rfl⟩
  | sld | sst | spub | ssub => cases h

/-! ### An accepted line and an accepted text -/

/-- `w` is the word of an ordinary instruction. -/
def OrdinaryWord (o : Ordinals) (w : Word) : Prop := ∃ i : Instr, w = encode o i ∧ i.opcode.isStorage = false

/-- The word of an accepted line, if it has one, is that of an ordinary instruction. -/
theorem assembleLine_ok {o : Ordinals} {line : List Char} {ow : Option Word} (h : assembleLine o line = .ok ow) :
    ∀ w ∈ ow, OrdinaryWord o w := by
  unfold assembleLine at h
  split at h
  · cases h
    simp
  · split at h
    · cases h
    · obtain ⟨i, hi, h⟩ := Asm.andThen_eq_ok.mp h
      cases h
      obtain ⟨rfl, hordinary⟩ := assembleOperands_ok hi
      rintro w ⟨⟩
      exact ⟨i, rfl, hordinary⟩

/-- An accepted text gives at most one word a line, each that of an ordinary instruction (R100, R101). -/
theorem assemble_ok {o : Ordinals} {lines : List (List Char)} {ws : List Word} (h : assemble o lines = .ok ws) :
    ws.length ≤ lines.length ∧ ∀ w ∈ ws, OrdinaryWord o w := by
  induction lines generalizing ws with
  | nil =>
    cases h
    simp
  | cons line lines ih =>
    obtain ⟨ow, hline, h⟩ := Asm.andThen_eq_ok.mp h
    obtain ⟨rest, hrest, h⟩ := Asm.andThen_eq_ok.mp h
    cases h
    obtain ⟨hlen, hwords⟩ := ih hrest
    refine ⟨?_, fun w hw => ?_⟩
    · have hone : ow.toList.length ≤ 1 := by cases ow <;> simp
      simp only [List.length_append, List.length_cons]
      omega
    · rcases List.mem_append.mp hw with hw | hw
      · exact assembleLine_ok hline w (Option.mem_toList.mp hw)
      · exact hwords w hw

/-- Settles O57: every word of an accepted text is an encoding, and encodings decode. -/
theorem assembledWordsDecode : Obligations.AssembledWordsDecode := by
  intro o lines ws ho h
  obtain ⟨hlen, hwords⟩ := assemble_ok h
  refine ⟨hlen, fun w hw => ?_⟩
  obtain ⟨i, rfl, hordinary⟩ := hwords w hw
  exact ⟨i, decode_encode ho i, hordinary⟩

end Sys2Proof.Machine
end
